-- ==== Sys2Proof/Word.lean ====
section
/-! DEFINITION. The word of the UM machine and the byte of its two streams (00_scope.md R5, R8;
44_io.md R200, R201). -/

namespace Sys2Proof

/-- A Word: an unsigned 32-bit value, the only value type of the machine (00_scope.md R8). -/
abbrev Word := BitVec 32

/-- A byte of the image, the input stream or the output stream (10_state.md R37). -/
abbrev Byte := BitVec 8

/-- 2^32, the modulus of every arithmetic result (41_register_ops.md R120). -/
abbrev wordModulus : Nat := 4294967296

/-- 2^32 − 1, the largest length of a segment (10_state.md R31). -/
abbrev maxSegmentLength : Nat := 4294967295

end Sys2Proof
end

