-- ==== Sys2Proof/Syntax.lean ====
section
/-! DEFINITION. The instructions, one constructor per row of spec/opcode_table.json
(30_encoding.md R86, R87).  Each constructor carries the operand fields its operation uses and no
other field: a field an operation ignores has no effect on it, whatever its value (R86). -/

namespace Sys2Proof

/-- A register selector: an index 0 to 7 (10_state.md R21, R23). -/
abbrev Reg := Fin 8

/-- One constructor per row of the opcode table. -/
inductive Instr where
  /-- Opcode 0 (41_register_ops.md R121). -/
  | conditionalMove (a b c : Reg)
  /-- Opcode 1 (42_segment_ops.md R150). -/
  | segmentLoad (a b c : Reg)
  /-- Opcode 2 (42_segment_ops.md R151). -/
  | segmentStore (a b c : Reg)
  /-- Opcode 3 (41_register_ops.md R122). -/
  | add (a b c : Reg)
  /-- Opcode 4 (41_register_ops.md R123). -/
  | multiply (a b c : Reg)
  /-- Opcode 5 (41_register_ops.md R124). -/
  | divide (a b c : Reg)
  /-- Opcode 6 (41_register_ops.md R125). -/
  | nand (a b c : Reg)
  /-- Opcode 7 (43_control.md R180): fields a, b and c are ignored. -/
  | halt
  /-- Opcode 8 (42_segment_ops.md R152): field a is ignored. -/
  | mapSegment (b c : Reg)
  /-- Opcode 9 (42_segment_ops.md R153): fields a and b are ignored. -/
  | unmapSegment (c : Reg)
  /-- Opcode 10 (44_io.md R200): fields a and b are ignored. -/
  | output (c : Reg)
  /-- Opcode 11 (44_io.md R201): fields a and b are ignored. -/
  | input (c : Reg)
  /-- Opcode 12 (43_control.md R181): field a is ignored. -/
  | loadProgram (b c : Reg)
  /-- Opcode 13 (41_register_ops.md R126): `value` is the 25-bit immediate, zero-extended
  (30_encoding.md R83). -/
  | loadImmediate (a : Reg) (value : Word)
  /-- Opcode 14, format Unknown (40_fetch_execute.md R111). -/
  | unknown14
  /-- Opcode 15, format Unknown (40_fetch_execute.md R111). -/
  | unknown15
  deriving DecidableEq, Repr

/-- The opcode field of the row an instruction belongs to (30_encoding.md R87). -/
def Instr.opcode : Instr → Nat
  | .conditionalMove _ _ _ => 0
  | .segmentLoad _ _ _ => 1
  | .segmentStore _ _ _ => 2
  | .add _ _ _ => 3
  | .multiply _ _ _ => 4
  | .divide _ _ _ => 5
  | .nand _ _ _ => 6
  | .halt => 7
  | .mapSegment _ _ => 8
  | .unmapSegment _ => 9
  | .output _ => 10
  | .input _ => 11
  | .loadProgram _ _ => 12
  | .loadImmediate _ _ => 13
  | .unknown14 => 14
  | .unknown15 => 15

end Sys2Proof
end

