-- ==== Sys2Proof/WellFormed.lean ====
section
/-! DEFINITION. Which instruction terms an encoding can hold (30_encoding.md R83).  Register selectors
are of type `Fin 8`, so a selector outside 0 to 7 cannot be written down (10_state.md R23); the one
check left is the width of LoadImmediate's value. -/

namespace Sys2Proof

/-- 2^25: the immediate of LoadImmediate is below it (30_encoding.md R83). -/
abbrev immediateModulus : Nat := 33554432

/-- The check on LoadImmediate's value: 0 ≤ value ≤ 2^25 − 1 (30_encoding.md R83). -/
abbrev ImmediateFits (value : Word) : Prop := value.toNat < immediateModulus

/-- The instruction is one that some word encodes. -/
def Instr.WellFormed : Instr → Bool
  | .conditionalMove _ _ _ => true
  | .segmentLoad _ _ _ => true
  | .segmentStore _ _ _ => true
  | .add _ _ _ => true
  | .multiply _ _ _ => true
  | .divide _ _ _ => true
  | .nand _ _ _ => true
  | .halt => true
  | .mapSegment _ _ => true
  | .unmapSegment _ => true
  | .output _ => true
  | .input _ => true
  | .loadProgram _ _ => true
  | .loadImmediate _ value => decide (ImmediateFits value)
  | .unknown14 => true
  | .unknown15 => true

end Sys2Proof
end

