-- ==== Sys2Proof/Decode.lean ====
section
/-! DEFINITION. The decoder and, after it, the encoder (30_encoding.md).  The decoder is the spec's two
stages: `decodeFormat` is R85's pure function from a word to one of three formats, and
`Decoded.toInstr` is the engine's dispatch from a decoded form to a row of the opcode table
(40_fetch_execute.md R101, R109). -/

namespace Sys2Proof

/-! ## Fields -/

/-- The opcode field `w[31:28]` (30_encoding.md R81). -/
def opcodeField (w : Word) : BitVec 4 := w.extractLsb' 28 4

/-- Field `a` of format ThreeRegister, `w[8:6]` (30_encoding.md R82). -/
def fieldA (w : Word) : Reg := (w.extractLsb' 6 3).toFin

/-- Field `b` of format ThreeRegister, `w[5:3]` (30_encoding.md R82). -/
def fieldB (w : Word) : Reg := (w.extractLsb' 3 3).toFin

/-- Field `c` of format ThreeRegister, `w[2:0]` (30_encoding.md R82). -/
def fieldC (w : Word) : Reg := (w.extractLsb' 0 3).toFin

/-- Field `a` of format LoadImmediate, `w[27:25]` (30_encoding.md R83). -/
def fieldImmediateA (w : Word) : Reg := (w.extractLsb' 25 3).toFin

/-- `zext_32(w[24:0])`, the immediate (30_encoding.md R83; 00_scope.md R8). -/
def fieldValue (w : Word) : Word := (w.extractLsb' 0 25).setWidth 32

/-! ## The decoder -/

/-- What the decoder produces (30_encoding.md R82, R83, R84). -/
inductive Decoded where
  /-- Opcodes 0 to 12. -/
  | threeRegister (op : Fin 13) (a b c : Reg)
  /-- Opcode 13. -/
  | loadImmediate (a : Reg) (value : Word)
  /-- Opcodes 14 and 15: `rawOpcode` 0 stands for 14 and 1 for 15. -/
  | unknown (rawOpcode : Fin 2)
  deriving DecidableEq, Repr

/-- `decode(w)` of 30_encoding.md R85: total, pure and stateless. -/
def decodeFormat (w : Word) : Decoded :=
  let op := (opcodeField w).toNat
  if h : op < 13 then .threeRegister ⟨op, h⟩ (fieldA w) (fieldB w) (fieldC w)
  else if op = 13 then .loadImmediate (fieldImmediateA w) (fieldValue w)
  else if op = 14 then .unknown 0
  else .unknown 1

/-- Dispatch: each decoded form reaches exactly one row (40_fetch_execute.md R101, R109). -/
def Decoded.toInstr : Decoded → Instr
  | .threeRegister 0 a b c => .conditionalMove a b c
  | .threeRegister 1 a b c => .segmentLoad a b c
  | .threeRegister 2 a b c => .segmentStore a b c
  | .threeRegister 3 a b c => .add a b c
  | .threeRegister 4 a b c => .multiply a b c
  | .threeRegister 5 a b c => .divide a b c
  | .threeRegister 6 a b c => .nand a b c
  | .threeRegister 7 _ _ _ => .halt
  | .threeRegister 8 _ b c => .mapSegment b c
  | .threeRegister 9 _ _ c => .unmapSegment c
  | .threeRegister 10 _ _ c => .output c
  | .threeRegister 11 _ _ c => .input c
  | .threeRegister 12 _ b c => .loadProgram b c
  | .loadImmediate a value => .loadImmediate a value
  | .unknown 0 => .unknown14
  | .unknown 1 => .unknown15

/-- The instruction a word stands for (30_encoding.md R85, R87). -/
def decode (w : Word) : Instr := (decodeFormat w).toInstr

/-! ## Bytes: the big-endian serialization of a word (20_memory.md R65) -/

/-- `(B[4k] << 24) | (B[4k+1] << 16) | (B[4k+2] << 8) | B[4k+3]` (20_memory.md R65). -/
def wordOfBytes (b0 b1 b2 b3 : Byte) : Word :=
  (b0.setWidth 32 <<< 24) ||| (b1.setWidth 32 <<< 16) ||| (b2.setWidth 32 <<< 8) ||| b3.setWidth 32

/-- The four bytes of a word, most significant first (20_memory.md R65). -/
def bytesOfWord (w : Word) : List Byte :=
  [w.extractLsb' 24 8, w.extractLsb' 16 8, w.extractLsb' 8 8, w.extractLsb' 0 8]

/-- Why a byte sequence does not begin with an instruction. -/
inductive DecodeError where
  /-- Fewer than four bytes are left: every instruction is exactly one 32-bit word (30_encoding.md R80). -/
  | truncated
  deriving DecidableEq, Repr

/-- The instruction a serialized program begins with, and the bytes after it (30_encoding.md R80,
R89).  Every word decodes, so the only rejection is a sequence shorter than a word. -/
def decodeBytes : List Byte → Except DecodeError (Instr × List Byte)
  | b0 :: b1 :: b2 :: b3 :: rest => .ok (decode (wordOfBytes b0 b1 b2 b3), rest)
  | _ => .error .truncated

/-- The host's question about one row of the opcode table: the instruction the decoder reads from the
word whose bits are `w`, the bits above `nbits` being 0. -/
def decodeTableWord (nbits w : Nat) : Option Instr :=
  some (decode (BitVec.ofNat 32 (w % 2 ^ nbits)))

/-! ## The encoder -/

/-- `encode3(op, a, b, c) = (op << 28) | (a << 6) | (b << 3) | c` (30_encoding.md R89). -/
def encode3 (op : Fin 13) (a b c : Reg) : Word :=
  (BitVec.ofNat 32 op.val <<< 28) ||| (BitVec.ofNat 32 a.val <<< 6) |||
    (BitVec.ofNat 32 b.val <<< 3) ||| BitVec.ofNat 32 c.val

/-- `encodeLI(a, v) = (13 << 28) | (a << 25) | (v mod 2^25)`, for any natural `v` (30_encoding.md R89). -/
def encodeLI (a : Reg) (v : Nat) : Word :=
  (13#32 <<< 28) ||| (BitVec.ofNat 32 a.val <<< 25) ||| BitVec.ofNat 32 (v % immediateModulus)

/-- The word of an illegal encoding with every ignored bit 0 (30_encoding.md R84). -/
def encodeUnknown (rawOpcode : Fin 2) : Word := BitVec.ofNat 32 (14 + rawOpcode.val) <<< 28

/-- The word of an instruction: filler bits and the register fields an operation ignores are 0
(30_encoding.md R89, R90). -/
def encode : Instr → Word
  | .conditionalMove a b c => encode3 0 a b c
  | .segmentLoad a b c => encode3 1 a b c
  | .segmentStore a b c => encode3 2 a b c
  | .add a b c => encode3 3 a b c
  | .multiply a b c => encode3 4 a b c
  | .divide a b c => encode3 5 a b c
  | .nand a b c => encode3 6 a b c
  | .halt => encode3 7 0 0 0
  | .mapSegment b c => encode3 8 0 b c
  | .unmapSegment c => encode3 9 0 0 c
  | .output c => encode3 10 0 0 c
  | .input c => encode3 11 0 0 c
  | .loadProgram b c => encode3 12 0 b c
  | .loadImmediate a value => encodeLI a value.toNat
  | .unknown14 => encodeUnknown 0
  | .unknown15 => encodeUnknown 1

/-- The image of a program: each word as four bytes, the k-th instruction as word k
(30_encoding.md R89, R90; 70_reset_and_hazards.md R251). -/
def imageOfWords (ws : List Word) : List Byte := ws.flatMap bytesOfWord

end Sys2Proof
end

