-- ==== Sys2Proof/Config.lean ====
section
/-! DEFINITION. What the spec leaves to the implementation or to the host (00_scope.md R6): the failure
reasons' names, the launch parameters with the defaults the spec fixes, and the two open values. -/

namespace Sys2Proof

/-- The failure reasons: a closed set (60_exceptions.md R221). -/
inductive FailReason where
  /-- The engine, before a fetch: `pc ≥ len(0)` (40_fetch_execute.md R102). -/
  | programCounterOutOfRange
  /-- Divide with a zero divisor (41_register_ops.md R124). -/
  | divideByZero
  /-- Output of a value above 255 (44_io.md R200). -/
  | outputRangeError
  /-- SegmentLoad, SegmentStore, UnmapSegment, LoadProgram (60_exceptions.md R221). -/
  | invalidSegmentAccess
  /-- SegmentLoad, SegmentStore with an offset past the segment's end (20_memory.md R51, R52). -/
  | outOfBounds
  /-- UnmapSegment of a released identifier (42_segment_ops.md R153). -/
  | doubleUnmap
  /-- MapSegment with no identifier left (20_memory.md R60). -/
  | segmentSpaceExhausted
  /-- MapSegment, LoadProgram beyond `STORE_CAPACITY_WORDS` (20_memory.md R60, R62). -/
  | storageExhausted
  /-- Opcodes 14 and 15 under the policy `Fail` (40_fetch_execute.md R111). -/
  | unknownOpcode
  /-- The image load, before the first step (70_reset_and_hazards.md R251). -/
  | malformedProgram
  deriving DecidableEq, Repr

namespace Config

/-- `UNKNOWN_OPCODE_POLICY` (00_scope.md R6; 92_eei_decisions.md D3). -/
inductive UnknownOpcodePolicy where
  /-- Opcodes 14 and 15 give `Failed(UnknownOpcode)`: the default. -/
  | fail
  /-- Opcodes 14 and 15 give `Halted`: the reference behaviour. -/
  | halt
  deriving DecidableEq, Repr

/-- `TRAILING_BYTES_POLICY` (00_scope.md R6; 92_eei_decisions.md D4). -/
inductive TrailingBytesPolicy where
  /-- A trailing partial word gives `Failed(MalformedProgram)`: the default. -/
  | fail
  /-- The 1 to 3 trailing bytes are dropped: the reference behaviour. -/
  | truncate
  deriving DecidableEq, Repr

/-- One answer of the host to an Input request (44_io.md R202). -/
inductive HostAnswer where
  | byte (b : Byte)
  | eof
  deriving DecidableEq, Repr, Inhabited

/-- The host's answers that no launch parameter fixes: a free value, the n-th answer of `INPUT`
(93_implementation_defined.md I7; log entry 3). -/
opaque hostAnswer : Nat → HostAnswer

/-- `INPUT`, the infinite sequence of the host's answers, as plain data (00_scope.md R6;
92_eei_decisions.md D11; log entry 3): first the answers of `given`; after them `EOF` for ever where
`eofForever` is set (the fixture convention of D11), else answers nothing constrains. -/
structure InputStream where
  given : List HostAnswer
  eofForever : Bool
  deriving DecidableEq, Repr

/-- The launch parameters (00_scope.md R6). -/
structure Launch where
  /-- `UNKNOWN_OPCODE_POLICY`. -/
  unknownOpcodePolicy : UnknownOpcodePolicy
  /-- `TRAILING_BYTES_POLICY`. -/
  trailingBytesPolicy : TrailingBytesPolicy
  /-- `MAX_SEGMENT_IDS`, from 1 to 2^32. -/
  maxSegmentIds : Nat
  /-- `STORE_CAPACITY_WORDS`; `none` is ∞. -/
  storeCapacityWords : Option Nat
  /-- `INPUT`. -/
  input : InputStream
  deriving DecidableEq, Repr

/-- The defaults, which are the values the spec fixes for the hardware (00_scope.md R6); `INPUT` has no
default and is left free. -/
def Launch.default : Launch where
  unknownOpcodePolicy := .fail
  trailingBytesPolicy := .fail
  maxSegmentIds := wordModulus
  storeCapacityWords := none
  input := { given := [], eofForever := false }

/-- The bound the spec puts on `MAX_SEGMENT_IDS` (00_scope.md R6). -/
abbrev Launch.wf (l : Launch) : Prop := 1 ≤ l.maxSegmentIds ∧ l.maxSegmentIds ≤ wordModulus

/-- A non-zero integer, in the form `EXIT_CODE` answers with (00_scope.md R6). -/
inductive NonZeroInt where
  /-- `positive n` is n + 1. -/
  | positive (n : Nat)
  /-- `negative n` is −(n + 1). -/
  | negative (n : Nat)
  deriving DecidableEq, Repr, Inhabited

/-- The integer it stands for. -/
def NonZeroInt.toInt : NonZeroInt → Int
  | .positive n => n + 1
  | .negative n => -(n + 1)

/-- `EXIT_CODE`: the exit status of each failure reason, which the spec leaves OPEN
(92_eei_decisions.md D20; log entry 4). -/
opaque exitCode : FailReason → NonZeroInt

end Config

end Sys2Proof
end

