-- ==== Sys2Proof/Machine/State.lean ====
section
/-! DEFINITION. The machine state as plain data (10_state.md R20), the reasons a step can stop, and the
state after reset (70_reset_and_hazards.md R250). -/

namespace Sys2Proof.Machine

/-- Sparse data by key, as a list of key and value pairs. -/
abbrev Table (α : Type) := List (Nat × α)

/-- A segment: a finite sequence of Words (10_state.md R29, R31), held as its length and those of its
words that are not 0, by offset.  An offset below the length with no cell reads as 0, which is what
MapSegment creates every word as (20_memory.md R60; log entry 1). -/
structure Segment where
  len : Nat
  cells : Table Word
  deriving DecidableEq, Repr

/-- The canonical form of a segment: offsets strictly rising and below the length, no cell equal to
what an unlisted offset reads as, and a length of at most 2^32 − 1 (10_state.md R31). -/
abbrev Segment.wf (g : Segment) : Prop :=
  g.len ≤ maxSegmentLength ∧ (g.cells.map Prod.fst).Pairwise (· < ·) ∧
    ∀ e ∈ g.cells, e.1 < g.len ∧ e.2 ≠ 0#32

/-- The segment of length 0. -/
def Segment.empty : Segment := { len := 0, cells := [] }

/-- The segment table `seg`: a partial map from identifiers to segments (10_state.md R20, R29).  An
identifier with no entry names no segment. -/
abbrev Memory := Table Segment

/-- The canonical form of the segment table: identifiers strictly rising, each a Word, and each segment
in its own canonical form. -/
abbrev Memory.wf (m : Memory) : Prop :=
  (m.map Prod.fst).Pairwise (· < ·) ∧ ∀ e ∈ m, e.1 < wordModulus ∧ e.2.wf

/-- The engine state (10_state.md R28). -/
inductive Status where
  | running
  | halted
  | failed (reason : FailReason)
  deriving DecidableEq, Repr

/-- The machine state of 10_state.md R20, and beside it the launch parameters of 00_scope.md R6. -/
structure State where
  /-- `x[0..7]` (R21). -/
  regs : Vector Word 8
  /-- The program counter, a word index into segment 0 (R25). -/
  pc : Word
  /-- The engine state (R28). -/
  status : Status
  /-- The segment table (R29). -/
  seg : Memory
  /-- How many identifiers were issued so far, counting 0 (R29). -/
  storeSize : Nat
  /-- The recycle queue, oldest released identifier first (R29, R34). -/
  queue : List Word
  /-- The bytes emitted so far, in order (R36). -/
  out : List Byte
  /-- How many Input answers were consumed (R36). -/
  inpos : Nat
  /-- The launch parameters, which no step changes (00_scope.md R6; log entry 2). -/
  launch : Config.Launch
  deriving DecidableEq, Repr

/-- Why there is no next state: only `step` answers with one of these, when the engine is in a terminal
state and so has no step (40_fetch_execute.md R100, R106).  No meaning of an instruction raises one:
a failing instruction ends in a next state whose status is `failed` (log entry 5). -/
inductive Fault where
  /-- `step` in status `halted`: the run has ended.  Safe. -/
  | engineHalted
  /-- `step` in status `failed reason`: the run has ended.  Safe. -/
  | engineFailed (reason : FailReason)
  deriving DecidableEq, Repr

/-- Why an instruction has no meaning in this model. -/
inductive Refusal where
  /-- An arm of `exec` with no meaning yet.  Safe.  No arm of this model answers with it. -/
  | notModelled (mnemonic : String)
  deriving DecidableEq, Repr

/-- The state in which the machine is created, given the launch parameters and the segment 0 that the
image load made (70_reset_and_hazards.md R250). -/
def State.initial (launch : Config.Launch) (segment0 : Segment) : State where
  regs := #v[0, 0, 0, 0, 0, 0, 0, 0]
  pc := 0
  status := .running
  seg := [(0, segment0)]
  storeSize := 1
  queue := []
  out := []
  inpos := 0
  launch := launch

/-- The machine right after reset at the default parameters, with an empty image: no program is placed
(70_reset_and_hazards.md R250, R251; log entry 6). -/
def State.reset : State := State.initial Config.Launch.default Segment.empty

end Sys2Proof.Machine
end

