-- ==== Sys2Proof/Machine/Ops.lean ====
section
/-! DEFINITION. The named operations of the machine: the outcomes of a handler, the register file, the
program counter, segments, the two memory primitives, the allocator and the two streams
(00_scope.md R9 to R12; 20_memory.md; 44_io.md).  An operation that can fail answers `Except`, so that
a failing instruction has no state of its own to leave behind (00_scope.md R11). -/

namespace Sys2Proof.Machine

/-! ## Outcomes -/

/-- `raise Failed(reason)`: the machine's one kind of exception (00_scope.md R11; 60_exceptions.md R220,
R225).  The status becomes `Failed(reason)`; nothing else changes, no state is saved, and control goes
nowhere.  There is no return from it (60_exceptions.md R226). -/
def raise (reason : FailReason) (s : State) : Host.Outcome State Fault Refusal :=
  .next { s with status := .failed reason }

/-- `halt` (00_scope.md R12). -/
def haltEngine (s : State) : Host.Outcome State Fault Refusal :=
  .next { s with status := .halted }

/-- The end of a handler: its whole effect, or none of it and a failure (00_scope.md R11;
40_fetch_execute.md R107, R108). -/
def complete (s : State) : Except FailReason State → Host.Outcome State Fault Refusal
  | .ok t => .next t
  | .error reason => raise reason s

/-! ## Registers and the program counter -/

/-- `x[i]` (00_scope.md R9; 10_state.md R23). -/
def State.reg (s : State) (i : Reg) : Word := s.regs[i.val]

/-- `x[i] <- v` (00_scope.md R9; 10_state.md R23). -/
def State.setReg (s : State) (i : Reg) (v : Word) : State :=
  { s with regs := s.regs.set i.val v }

/-- `pc <- target` (00_scope.md R12). -/
def State.setPc (s : State) (target : Word) : State := { s with pc := target }

/-! ## Tables -/

/-- The value at a key. -/
def Table.lookup {α : Type} (k : Nat) : Table α → Option α
  | [] => none
  | (j, v) :: rest => if j = k then some v else Table.lookup k rest

/-- The table with the value at a key set, its keys still rising. -/
def Table.insert {α : Type} (k : Nat) (v : α) : Table α → Table α
  | [] => [(k, v)]
  | (j, u) :: rest =>
    if k < j then (k, v) :: (j, u) :: rest
    else if k = j then (k, v) :: rest
    else (j, u) :: Table.insert k v rest

/-- The table with no value at a key. -/
def Table.erase {α : Type} (k : Nat) : Table α → Table α
  | [] => []
  | (j, u) :: rest => if j = k then Table.erase k rest else (j, u) :: Table.erase k rest

/-! ## Segments -/

/-- The word at an offset; an offset with no cell reads as 0. -/
def Segment.read (g : Segment) (i : Nat) : Word := (Table.lookup i g.cells).getD 0#32

/-- The segment with one word changed; 0 is stored as no cell, which keeps the form canonical. -/
def Segment.write (g : Segment) (i : Nat) (v : Word) : Segment :=
  { g with cells := if v = 0#32 then Table.erase i g.cells else Table.insert i v g.cells }

/-- `[0, 0, ..., 0]`, exactly n words (20_memory.md R60). -/
def Segment.zeros (n : Nat) : Segment := { len := n, cells := [] }

/-- The cells of a sequence of words laid out from an offset on. -/
def cellsOfWords (at_ : Nat) : List Word → Table Word
  | [] => []
  | w :: ws => if w = 0#32 then cellsOfWords (at_ + 1) ws else (at_, w) :: cellsOfWords (at_ + 1) ws

/-- The segment that holds a sequence of words. -/
def Segment.ofWords (ws : List Word) : Segment := { len := ws.length, cells := cellsOfWords 0 ws }

/-! ## The segment table -/

/-- The segment an identifier names, if any (10_state.md R29). -/
def State.segment? (s : State) (id : Word) : Option Segment := Table.lookup id.toNat s.seg

/-- `active(s)` (10_state.md R30). -/
def State.active (s : State) (id : Word) : Bool := (s.segment? id).isSome

/-- The identifier is released: issued before, its slot empty, and on the queue (10_state.md R30). -/
def State.released (s : State) (id : Word) : Bool :=
  decide (id.toNat < s.storeSize) && !s.active id && s.queue.contains id

/-- `len(s)`; 0 for an identifier that names no segment (00_scope.md R10). -/
def State.segLen (s : State) (id : Word) : Nat :=
  match s.segment? id with
  | some g => g.len
  | none => 0

/-- The table with the segment an identifier names replaced. -/
def State.putSegment (s : State) (id : Word) (g : Segment) : State :=
  { s with seg := Table.insert id.toNat g s.seg }

/-- `used`, the words all active segments hold together (10_state.md R33). -/
def State.used (s : State) : Nat := (s.seg.map fun e => e.2.len).sum

/-- The number of words is more than `STORE_CAPACITY_WORDS` (00_scope.md R6). -/
def State.exceedsCapacity (s : State) (words : Nat) : Bool :=
  match s.launch.storeCapacityWords with
  | none => false
  | some capacity => decide (capacity < words)

/-! ## Memory primitives -/

/-- `MemRead((s, i), 1)` (20_memory.md R51). -/
def State.memRead (s : State) (id offset : Word) : Except FailReason Word :=
  match s.segment? id with
  | none => .error .invalidSegmentAccess
  | some g => if g.len ≤ offset.toNat then .error .outOfBounds else .ok (g.read offset.toNat)

/-- `MemWrite((s, i), 1, v)` (20_memory.md R52). -/
def State.memWrite (s : State) (id offset v : Word) : Except FailReason State :=
  match s.segment? id with
  | none => .error .invalidSegmentAccess
  | some g =>
    if g.len ≤ offset.toNat then .error .outOfBounds
    else .ok (s.putSegment id (g.write offset.toNat v))

/-! ## The allocator -/

/-- No identifier can be issued: the queue is empty and `store_size = MAX_SEGMENT_IDS` (20_memory.md R60). -/
def State.idsExhausted (s : State) : Bool :=
  s.queue.isEmpty && decide (s.storeSize = s.launch.maxSegmentIds)

/-- The identifier the next allocation takes, and the state in which it is taken: the oldest released
identifier, else `store_size` (20_memory.md R60). -/
def State.takeId (s : State) : Word × State :=
  match s.queue with
  | id :: rest => (id, { s with queue := rest })
  | [] => (BitVec.ofNat 32 s.storeSize, { s with storeSize := s.storeSize + 1 })

/-- `Alloc(n)` (20_memory.md R60): the identifier of the new segment, and the state that holds it. -/
def State.alloc (s : State) (n : Word) : Except FailReason (Word × State) :=
  if s.idsExhausted then .error .segmentSpaceExhausted
  else if s.exceedsCapacity (s.used + n.toNat) then .error .storageExhausted
  else .ok (s.takeId.1, s.takeId.2.putSegment s.takeId.1 (Segment.zeros n.toNat))

/-- `Release(s)` (20_memory.md R61). -/
def State.release (s : State) (id : Word) : State :=
  { s with seg := Table.erase id.toNat s.seg, queue := s.queue ++ [id] }

/-- `ReplaceSeg0(s)`, with the check that `s` is active which LoadProgram makes before it
(20_memory.md R62; 43_control.md R181).  Segments are values, so the copy shares nothing with its
source (20_memory.md R63). -/
def State.replaceSeg0 (s : State) (id : Word) : Except FailReason State :=
  match s.segment? id with
  | none => .error .invalidSegmentAccess
  | some g =>
    if s.exceedsCapacity (s.used - s.segLen 0#32 + g.len) then .error .storageExhausted
    else .ok (s.putSegment 0#32 g)

/-! ## The two streams -/

/-- `OutWrite(byte)` (00_scope.md R12; 44_io.md R200). -/
def State.outWrite (s : State) (b : Byte) : State := { s with out := s.out ++ [b] }

/-- `INPUT[n]` (00_scope.md R6; log entry 3). -/
def inputAt (input : Config.InputStream) (n : Nat) : Config.HostAnswer :=
  match input.given[n]? with
  | some answer => answer
  | none => if input.eofForever then .eof else Config.hostAnswer n

/-- The element the next Input receives, `INPUT[inpos]` (10_state.md R36). -/
def State.nextAnswer (s : State) : Config.HostAnswer := inputAt s.launch.input s.inpos

/-- The state after one `InRead()` (44_io.md R201). -/
def State.advanceInput (s : State) : State := { s with inpos := s.inpos + 1 }

end Sys2Proof.Machine
end

