-- ==== Sys2Proof/Machine/Operands.lean ====
section
/-! DEFINITION. The values that operands other than a plain register bring into a register, and the value
a register brings to the output stream (30_encoding.md R86; 44_io.md R200, R201).  A register operand is
the Word in that register, `State.reg` of Ops.lean, and there is no other addressing form. -/

namespace Sys2Proof.Machine

/-- `zext_32(value)` of LoadImmediate: the decoder already widened the field (30_encoding.md R83;
41_register_ops.md R126). -/
def immediateOperand (value : Word) : Word := value

/-- What Input writes for an answer of the host: a byte zero-extended, or 0xFFFFFFFF at end-of-stream
(44_io.md R201). -/
def answerWord : Config.HostAnswer → Word
  | .byte b => b.setWidth 32
  | .eof => 0xFFFFFFFF#32

/-- The range Output accepts: a value of at most 255 (44_io.md R200). -/
def fitsByte (v : Word) : Bool := decide (v.toNat ≤ 255)

/-- `v[7:0]`, the byte Output emits (44_io.md R200). -/
def lowByte (v : Word) : Byte := v.extractLsb' 0 8

end Sys2Proof.Machine
end

