-- ==== Sys2Proof/Machine/Flags.lean ====
section
/-! DEFINITION. The machine has no flags, no condition codes and no predicate registers, and no
instruction sets one (10_state.md R35; 41_register_ops.md R120).  What stands here are the arithmetic
results, of which no carry or overflow is kept, and the one condition an instruction tests. -/

namespace Sys2Proof.Machine

/-- `(x + y) mod 2^32` (41_register_ops.md R122). -/
def addWord (x y : Word) : Word := x + y

/-- `(x * y) mod 2^32` (41_register_ops.md R123). -/
def mulWord (x y : Word) : Word := x * y

/-- `floor(x / y)`, unsigned; failing for a zero divisor (41_register_ops.md R124). -/
def divWord (x y : Word) : Except FailReason Word :=
  if y = 0#32 then .error .divideByZero else .ok (x / y)

/-- `~(x & y)` over all 32 bits (41_register_ops.md R125). -/
def nandWord (x y : Word) : Word := ~~~(x &&& y)

/-- ConditionalMove's test, of a general register (41_register_ops.md R121). -/
def conditionHolds (v : Word) : Bool := decide (v ≠ 0#32)

end Sys2Proof.Machine
end

