-- ==== Sys2Proof/Machine/ControlOps.lean ====
section
/-! DEFINITION. The control operations, Halt and LoadProgram (43_control.md), and the two illegal
opcodes (40_fetch_execute.md R111). -/

namespace Sys2Proof.Machine

/-- Halt (43_control.md R180). -/
def execHalt (s : State) : Host.Outcome State Fault Refusal := haltEngine s

/-- LoadProgram's copy: none for identifier 0 (43_control.md R181). -/
def loadSegment0 (s : State) (id : Word) : Except FailReason State :=
  if id = 0#32 then .ok s else s.replaceSeg0 id

/-- LoadProgram (43_control.md R181): the identifier and the target are read before any effect. -/
def execLoadProgram (b c : Reg) (s : State) : Host.Outcome State Fault Refusal :=
  complete s ((loadSegment0 s (s.reg b)).map fun t => t.setPc (s.reg c))

/-- What an illegal opcode does, by `UNKNOWN_OPCODE_POLICY` (40_fetch_execute.md R111). -/
def unknownOpcode (s : State) : Host.Outcome State Fault Refusal :=
  match s.launch.unknownOpcodePolicy with
  | .fail => raise .unknownOpcode s
  | .halt => haltEngine s

/-- Opcode 14 (40_fetch_execute.md R111). -/
def execUnknown14 (s : State) : Host.Outcome State Fault Refusal := unknownOpcode s

/-- Opcode 15 (40_fetch_execute.md R111). -/
def execUnknown15 (s : State) : Host.Outcome State Fault Refusal := unknownOpcode s

end Sys2Proof.Machine
end

