-- ==== Sys2Proof/Machine/IoOps.lean ====
section
/-! DEFINITION. The input and output operations (44_io.md). -/

namespace Sys2Proof.Machine

/-- Output (44_io.md R200). -/
def execOutput (c : Reg) (s : State) : Host.Outcome State Fault Refusal :=
  complete s
    (if fitsByte (s.reg c) then .ok (s.outWrite (lowByte (s.reg c))) else .error .outputRangeError)

/-- Input (44_io.md R201). -/
def execInput (c : Reg) (s : State) : Host.Outcome State Fault Refusal :=
  .next (s.advanceInput.setReg c (answerWord s.nextAnswer))

end Sys2Proof.Machine
end

