-- ==== Sys2Proof/Machine/RegisterOps.lean ====
section
/-! DEFINITION. The register operations: ConditionalMove, Add, Multiply, Divide, Nand, LoadImmediate
(41_register_ops.md).  Every operand is read before the destination is written (00_scope.md R13). -/

namespace Sys2Proof.Machine

/-- ConditionalMove (41_register_ops.md R121). -/
def execConditionalMove (a b c : Reg) (s : State) : Host.Outcome State Fault Refusal :=
  .next (if conditionHolds (s.reg c) then s.setReg a (s.reg b) else s)

/-- Add (41_register_ops.md R122). -/
def execAdd (a b c : Reg) (s : State) : Host.Outcome State Fault Refusal :=
  .next (s.setReg a (addWord (s.reg b) (s.reg c)))

/-- Multiply (41_register_ops.md R123). -/
def execMultiply (a b c : Reg) (s : State) : Host.Outcome State Fault Refusal :=
  .next (s.setReg a (mulWord (s.reg b) (s.reg c)))

/-- Divide (41_register_ops.md R124). -/
def execDivide (a b c : Reg) (s : State) : Host.Outcome State Fault Refusal :=
  complete s ((divWord (s.reg b) (s.reg c)).map fun quotient => s.setReg a quotient)

/-- Nand (41_register_ops.md R125). -/
def execNand (a b c : Reg) (s : State) : Host.Outcome State Fault Refusal :=
  .next (s.setReg a (nandWord (s.reg b) (s.reg c)))

/-- LoadImmediate (41_register_ops.md R126). -/
def execLoadImmediate (a : Reg) (value : Word) (s : State) : Host.Outcome State Fault Refusal :=
  .next (s.setReg a (immediateOperand value))

end Sys2Proof.Machine
end

