-- ==== Sys2Proof/Machine/SegmentOps.lean ====
section
/-! DEFINITION. The segment operations: SegmentLoad, SegmentStore, MapSegment, UnmapSegment
(42_segment_ops.md). -/

namespace Sys2Proof.Machine

/-- SegmentLoad (42_segment_ops.md R150). -/
def execSegmentLoad (a b c : Reg) (s : State) : Host.Outcome State Fault Refusal :=
  complete s ((s.memRead (s.reg b) (s.reg c)).map fun v => s.setReg a v)

/-- SegmentStore (42_segment_ops.md R151). -/
def execSegmentStore (a b c : Reg) (s : State) : Host.Outcome State Fault Refusal :=
  complete s (s.memWrite (s.reg a) (s.reg b) (s.reg c))

/-- MapSegment (42_segment_ops.md R152): the length is read before the identifier is written. -/
def execMapSegment (b c : Reg) (s : State) : Host.Outcome State Fault Refusal :=
  complete s ((s.alloc (s.reg c)).map fun r => r.2.setReg b r.1)

/-- UnmapSegment's checks, in the order of its pseudocode, and the release (42_segment_ops.md R153). -/
def unmap (s : State) (id : Word) : Except FailReason State :=
  if id = 0#32 then .error .invalidSegmentAccess
  else if s.released id then .error .doubleUnmap
  else if s.storeSize ≤ id.toNat then .error .invalidSegmentAccess
  else .ok (s.release id)

/-- UnmapSegment (42_segment_ops.md R153). -/
def execUnmapSegment (c : Reg) (s : State) : Host.Outcome State Fault Refusal :=
  complete s (unmap s (s.reg c))

end Sys2Proof.Machine
end

