-- ==== Sys2Proof/Machine/Dispatch.lean ====
section
/-! DEFINITION. Dispatch: each row of the opcode table reaches exactly one handler
(40_fetch_execute.md R101, R109).  The handler runs in the state the fetch left, with `pc` at the fetch
offset plus one (R103). -/

namespace Sys2Proof.Machine

def exec (i : Instr) (s : State) : Host.Outcome State Fault Refusal :=
  match i with
  | .conditionalMove a b c => Sys2Proof.Machine.execConditionalMove a b c s
  | .segmentLoad a b c => Sys2Proof.Machine.execSegmentLoad a b c s
  | .segmentStore a b c => Sys2Proof.Machine.execSegmentStore a b c s
  | .add a b c => Sys2Proof.Machine.execAdd a b c s
  | .multiply a b c => Sys2Proof.Machine.execMultiply a b c s
  | .divide a b c => Sys2Proof.Machine.execDivide a b c s
  | .nand a b c => Sys2Proof.Machine.execNand a b c s
  | .halt => Sys2Proof.Machine.execHalt s
  | .mapSegment b c => Sys2Proof.Machine.execMapSegment b c s
  | .unmapSegment c => Sys2Proof.Machine.execUnmapSegment c s
  | .output c => Sys2Proof.Machine.execOutput c s
  | .input c => Sys2Proof.Machine.execInput c s
  | .loadProgram b c => Sys2Proof.Machine.execLoadProgram b c s
  | .loadImmediate a value => Sys2Proof.Machine.execLoadImmediate a value s
  | .unknown14 => Sys2Proof.Machine.execUnknown14 s
  | .unknown15 => Sys2Proof.Machine.execUnknown15 s

end Sys2Proof.Machine
end

