-- ==== Sys2Proof/Machine/Fetch.lean ====
section
/-! DEFINITION. The engine's fetch from segment 0 (40_fetch_execute.md R102, R103; 20_memory.md R53). -/

namespace Sys2Proof.Machine

/-- The word the engine fetches: `seg0[pc]`, or none where `pc ≥ len(0)` (40_fetch_execute.md R102). -/
def State.fetch? (s : State) : Option Word :=
  match s.segment? 0#32 with
  | none => none
  | some g => if g.len ≤ s.pc.toNat then none else some (g.read s.pc.toNat)

/-- The state a handler runs in: `pc` at the fetch offset plus one (40_fetch_execute.md R103). -/
def State.advancePc (s : State) : State := s.setPc (s.pc + 1)

/-- Segment 0 made long enough to hold offset `at_`, with the word there replaced. -/
def Segment.place (g : Segment) (at_ : Nat) (w : Word) : Segment :=
  { g with len := max g.len (at_ + 1) }.write at_ w

end Sys2Proof.Machine
end

