-- ==== Sys2Proof/Machine/Step.lean ====
section
/-! DEFINITION. One step of the engine (40_fetch_execute.md R100, R101), and the state in which the next
step runs a given word. -/

namespace Sys2Proof.Machine

/-- One step: range check, fetch and advance, decode, dispatch (40_fetch_execute.md R101).  In a terminal
status the engine has no step (R100). -/
def step (s : State) : Host.Outcome State Fault Refusal :=
  match s.status with
  | .running =>
    match s.fetch? with
    | none => raise .programCounterOutOfRange s
    | some w => exec (decode w) s.advancePc
  | .halted => .fault .engineHalted
  | .failed reason => .fault (.engineFailed reason)

/-- The state with a word placed at `(segment 0, pc)` and the engine running, so that the next step
fetches and runs exactly it.  Where segment 0 is too short it is lengthened with zero words.  This
stands for the host's load of a program (log entry 6); no instruction does it. -/
def State.withFetchWord (s : State) (nbits w : Nat) : State :=
  { s.putSegment 0#32
      (((s.segment? 0#32).getD Segment.empty).place s.pc.toNat (BitVec.ofNat 32 (w % 2 ^ nbits))) with
    status := .running }

end Sys2Proof.Machine
end

