-- ==== Sys2Proof/Machine/Assembler.lean ====
section
/-! DEFINITION. The assembler syntax of the test-vector generator, which spells the instructions
(30_encoding.md R89, R90): reading a program text, and writing an instruction.  The engine never reads
any of it (00_scope.md R4). -/

namespace Sys2Proof.Machine

/-! ## Writing an instruction -/

/-- The character of a digit below 10. -/
def digitChar (d : Nat) : Char := Char.ofNat (48 + d)

/-- The decimal digits of a number below 10^fuel, before the characters already written. -/
def decimalDigits : Nat → Nat → List Char → List Char
  | 0, _, written => written
  | fuel + 1, n, written =>
    if n < 10 then digitChar n :: written
    else decimalDigits fuel (n / 10) (digitChar (n % 10) :: written)

/-- `r0` to `r7` (30_encoding.md R90). -/
def registerText (r : Reg) : List Char := ['r', digitChar r.val]

/-- Operands separated by a comma and a space. -/
def operandsText : List (List Char) → List Char
  | [] => []
  | [x] => x
  | x :: xs => x ++ [',', ' '] ++ operandsText xs

/-- The call form of 30_encoding.md R90. -/
def callText (name : String) (operands : List (List Char)) : List Char :=
  name.toList ++ ['('] ++ operandsText operands ++ [')']

/-- The text of an instruction (30_encoding.md R90); an illegal opcode has no spelling. -/
def asmText : Instr → Option (List Char)
  | .conditionalMove a b c => some (callText "ConditionalMove" [registerText a, registerText b, registerText c])
  | .segmentLoad a b c => some (callText "SegmentLoad" [registerText a, registerText b, registerText c])
  | .segmentStore a b c => some (callText "SegmentStore" [registerText a, registerText b, registerText c])
  | .add a b c => some (callText "Add" [registerText a, registerText b, registerText c])
  | .multiply a b c => some (callText "Multiply" [registerText a, registerText b, registerText c])
  | .divide a b c => some (callText "Divide" [registerText a, registerText b, registerText c])
  | .nand a b c => some (callText "Nand" [registerText a, registerText b, registerText c])
  | .halt => some "Halt".toList
  | .mapSegment b c => some (callText "MapSegment" [registerText b, registerText c])
  | .unmapSegment c => some (callText "UnmapSegment" [registerText c])
  | .output c => some (callText "Output" [registerText c])
  | .input c => some (callText "Input" [registerText c])
  | .loadProgram b c => some (callText "LoadProgram" [registerText b, registerText c])
  | .loadImmediate a value =>
    some (callText "LoadImmediate" [registerText a, decimalDigits 10 value.toNat []])
  | .unknown14 => none
  | .unknown15 => none

/-! ## Reading a program -/

/-- A piece of program text. -/
inductive Token where
  | word (text : List Char)
  | openParen
  | closeParen
  | comma
  | newline
  deriving DecidableEq, Repr

/-- The word read so far, as a token. -/
def flushWord : List Char → List Token
  | [] => []
  | c :: cs => [.word (c :: cs).reverse]

/-- The tokens of a text; `read` holds the word read so far, last character first.  DESIGN CHOICE (log
entry 8): a space separates words and is otherwise skipped; a tab or a carriage return is not skipped.
Safe. -/
def tokens (read : List Char) : List Char → List Token
  | [] => flushWord read
  | c :: cs =>
    if c = '(' then flushWord read ++ .openParen :: tokens [] cs
    else if c = ')' then flushWord read ++ .closeParen :: tokens [] cs
    else if c = ',' then flushWord read ++ .comma :: tokens [] cs
    else if c = '\n' then flushWord read ++ .newline :: tokens [] cs
    else if c = ' ' then flushWord read ++ tokens [] cs
    else tokens (c :: read) cs

/-- The value of a digit in a base. -/
def digitValue (base : Nat) (c : Char) : Option Nat :=
  let k := c.toNat
  let d := if 48 ≤ k ∧ k ≤ 57 then k - 48
    else if 97 ≤ k ∧ k ≤ 102 then k - 87
    else if 65 ≤ k ∧ k ≤ 70 then k - 55
    else base
  if d < base then some d else none

/-- The number that digits write in a base, after the digits already read. -/
def digitsValue (base : Nat) (soFar : Nat) : List Char → Option Nat
  | [] => some soFar
  | c :: cs =>
    match digitValue base c with
    | some d => digitsValue base (base * soFar + d) cs
    | none => none

/-- An operand: a register, or a decimal or `0x` hexadecimal natural number (30_encoding.md R90). -/
inductive Operand where
  | register (r : Reg)
  | number (n : Nat)
  deriving DecidableEq, Repr

/-- The operand a word spells.  DESIGN CHOICE (log entry 8): leading zeros are accepted in a number and
not in a register, and the hexadecimal marker is `0x` in small letters.  Safe. -/
def operandOf : List Char → Option Operand
  | [] => none
  | ['r', d] =>
    match digitValue 8 d with
    | some n => if h : n < 8 then some (.register ⟨n, h⟩) else none
    | none => none
  | '0' :: 'x' :: d :: ds => (digitsValue 16 0 (d :: ds)).map .number
  | c :: cs => (digitsValue 10 0 (c :: cs)).map .number

/-- The instruction of a name and its operands, in the order of the table of 30_encoding.md R90.  An
immediate is reduced modulo 2^25, as the encoder does (R89). -/
def instrOf (name : List Char) (operands : List Operand) : Option Instr :=
  match operands with
  | [] => if name = "Halt".toList then some .halt else none
  | [.register c] =>
    if name = "UnmapSegment".toList then some (.unmapSegment c)
    else if name = "Output".toList then some (.output c)
    else if name = "Input".toList then some (.input c)
    else none
  | [.register b, .register c] =>
    if name = "MapSegment".toList then some (.mapSegment b c)
    else if name = "LoadProgram".toList then some (.loadProgram b c)
    else none
  | [.register a, .number v] =>
    if name = "LoadImmediate".toList then
      some (.loadImmediate a (BitVec.ofNat 32 (v % immediateModulus)))
    else none
  | [.register a, .register b, .register c] =>
    if name = "ConditionalMove".toList then some (.conditionalMove a b c)
    else if name = "SegmentLoad".toList then some (.segmentLoad a b c)
    else if name = "SegmentStore".toList then some (.segmentStore a b c)
    else if name = "Add".toList then some (.add a b c)
    else if name = "Multiply".toList then some (.multiply a b c)
    else if name = "Divide".toList then some (.divide a b c)
    else if name = "Nand".toList then some (.nand a b c)
    else none
  | _ => none

/-- Where the reader stands in a program text. -/
inductive ReadMode where
  /-- Between two instructions. -/
  | between
  /-- After the name of an instruction. -/
  | named (name : List Char)
  /-- An operand comes next; the operands read so far, last first. -/
  | wantsOperand (name : List Char) (operands : List Operand)
  /-- After an operand. -/
  | hasOperand (name : List Char) (operands : List Operand)
  /-- After a closing parenthesis. -/
  | closed
  deriving DecidableEq, Repr

/-- The instructions of a token sequence: one per line or separated by commas (30_encoding.md R90).
DESIGN CHOICE (log entry 8; the spec gives no further grammar, 91_not_in_source.md N4): a comma may stand
last, with no instruction after it, and a comma may be followed by line breaks; empty lines and the
empty text are accepted.  A comma at the start, after a comma or after a line break, a
line break inside an operand list, empty parentheses and two instructions with nothing between them are
refused.  Safe: the engine never reads text. -/
def instrsOf (mode : ReadMode) : List Token → Option (List Instr)
  | [] =>
    match mode with
    | .between => some []
    | .closed => some []
    | .named name => (instrOf name []).map fun i => [i]
    | .wantsOperand _ _ => none
    | .hasOperand _ _ => none
  | t :: ts =>
    match mode, t with
    | .between, .newline => instrsOf .between ts
    | .between, .word name => instrsOf (.named name) ts
    | .named name, .openParen => instrsOf (.wantsOperand name []) ts
    | .named name, .comma =>
      match instrOf name [], instrsOf .between ts with
      | some i, some is => some (i :: is)
      | _, _ => none
    | .named name, .newline =>
      match instrOf name [], instrsOf .between ts with
      | some i, some is => some (i :: is)
      | _, _ => none
    | .wantsOperand name operands, .word text =>
      match operandOf text with
      | some operand => instrsOf (.hasOperand name (operand :: operands)) ts
      | none => none
    | .hasOperand name operands, .comma => instrsOf (.wantsOperand name operands) ts
    | .hasOperand name operands, .closeParen =>
      match instrOf name operands.reverse, instrsOf .closed ts with
      | some i, some is => some (i :: is)
      | _, _ => none
    | .closed, .comma => instrsOf .between ts
    | .closed, .newline => instrsOf .between ts
    | _, _ => none

/-- The instructions of a program text, or none where it is not of the syntax (30_encoding.md R90). -/
def parseProgram (text : List Char) : Option (List Instr) := instrsOf .between (tokens [] text)

/-- The words of a program text: the k-th instruction is word k of the image (30_encoding.md R90). -/
def assemble (text : List Char) : Option (List Word) := (parseProgram text).map fun is => is.map encode

end Sys2Proof.Machine
end

