-- ==== Sys2Proof/Machine/Boot.lean ====
section
/-! DEFINITION. The image load and the creation of the machine (70_reset_and_hazards.md R250, R251). -/

namespace Sys2Proof.Machine

/-- The words of an image, each from four bytes, most significant first; a trailing partial word gives
no word (20_memory.md R65; 70_reset_and_hazards.md R251). -/
def wordsOfBytes : List Byte → List Word
  | b0 :: b1 :: b2 :: b3 :: rest => wordOfBytes b0 b1 b2 b3 :: wordsOfBytes rest
  | _ => []

/-- The image has a trailing partial word that the policy refuses (70_reset_and_hazards.md R251). -/
def refusesTrailing (policy : Config.TrailingBytesPolicy) (image : List Byte) : Bool :=
  match policy with
  | .fail => decide (image.length % 4 ≠ 0)
  | .truncate => false

/-- `LoadImage(B)`: the initial segment 0, or `MalformedProgram` (70_reset_and_hazards.md R251). -/
def loadImage (policy : Config.TrailingBytesPolicy) (image : List Byte) : Except FailReason Segment :=
  if refusesTrailing policy image then .error .malformedProgram
  else if maxSegmentLength < image.length / 4 then .error .malformedProgram
  else .ok (Segment.ofWords (wordsOfBytes image))

/-- The machine at start, for launch parameters and an image.  Where the load fails no step runs: the
status is `Failed(MalformedProgram)` from the start, and segment 0 is left empty
(70_reset_and_hazards.md R250, R251; log entry 6). -/
def boot (launch : Config.Launch) (image : List Byte) : State :=
  match loadImage launch.trailingBytesPolicy image with
  | .ok segment0 => State.initial launch segment0
  | .error reason => { State.initial launch Segment.empty with status := .failed reason }

end Sys2Proof.Machine
end

