-- ==== Sys2Proof/Safety.lean ====
section
/-! DEFINITION. What claims speak of: what a host can observe, the invariant of every reachable state,
and what "unchanged" means of a part of the state. -/

namespace Sys2Proof.Machine

/-! ## What the host observes -/

/-- What a run leaves behind that anyone can observe (70_reset_and_hazards.md R260). -/
structure Observation where
  status : Status
  out : List Byte
  inpos : Nat
  deriving DecidableEq, Repr

/-- The observable part of a state. -/
def State.observe (s : State) : Observation := { status := s.status, out := s.out, inpos := s.inpos }

/-- The process exit status: 0 on halt, non-zero on a failure, none while the run goes on
(60_exceptions.md R229). -/
def State.exitStatus (s : State) : Option Int :=
  match s.status with
  | .running => none
  | .halted => some 0
  | .failed reason => some (Config.exitCode reason).toInt

/-- The run has ended: `Halted` and `Failed` are terminal (10_state.md R28; 70_reset_and_hazards.md R259). -/
def State.terminal (s : State) : Prop := s.status ≠ .running

/-- The run has not failed: what a safe run keeps (60_exceptions.md R220). -/
def State.noFailure (s : State) : Prop := ∀ reason, s.status ≠ .failed reason

/-- The next state of an outcome, if it has one. -/
def nextState? : Host.Outcome State Fault Refusal → Option State
  | .next s => some s
  | .fault _ => none
  | .refused _ => none

/-- The states a run reaches from the creation of the machine (70_reset_and_hazards.md R259). -/
inductive Reachable (launch : Config.Launch) (image : List Byte) : State → Prop where
  | created : Reachable launch image (boot launch image)
  | next {s t : State} : Reachable launch image s → step s = .next t → Reachable launch image t

/-! ## The invariant -/

/-- What holds of every reachable state (10_state.md R29, R30, R31; 00_scope.md R6). -/
structure State.Inv (s : State) : Prop where
  /-- The segment table and each segment are in canonical form, and no segment is longer than
  2^32 − 1 words (R31). -/
  memory : Memory.wf s.seg
  /-- Identifier 0 is always active (R30). -/
  segment0 : s.active 0#32 = true
  /-- No active identifier is one that was never issued (R29). -/
  issued : ∀ id : Word, s.active id = true → id.toNat < s.storeSize
  /-- No identifier is on the queue twice (R30). -/
  queueNodup : s.queue.Nodup
  /-- What is on the queue was issued and is not active (R30). -/
  queueReleased : ∀ id ∈ s.queue, id.toNat < s.storeSize ∧ s.active id = false
  /-- No identifier is skipped: each issued identifier is active or on the queue (R30). -/
  dense : ∀ id : Word, id.toNat < s.storeSize → s.active id = true ∨ id ∈ s.queue
  /-- `store_size` is from 1 to `MAX_SEGMENT_IDS` (R20). -/
  storeSize : 1 ≤ s.storeSize ∧ s.storeSize ≤ s.launch.maxSegmentIds
  /-- `MAX_SEGMENT_IDS` is from 1 to 2^32 (00_scope.md R6). -/
  launch : s.launch.wf

/-- The storage in use is within `STORE_CAPACITY_WORDS` (10_state.md R33). -/
def State.withinCapacity (s : State) : Prop := s.exceedsCapacity s.used = false

/-! ## What stays as it was -/

/-- Every word of every segment reads as before, with the same faults where there is no word
(20_memory.md R51), and no segment changed its length or came or went. -/
structure SameMemory (s t : State) : Prop where
  words : ∀ id offset : Word, t.memRead id offset = s.memRead id offset
  lengths : ∀ id : Word, t.segLen id = s.segLen id
  active : ∀ id : Word, t.active id = s.active id

/-- Every word outside `(id, offset)` reads as before, and no segment changed its length or came or
went (20_memory.md R52). -/
structure SameMemoryBut (id offset : Word) (s t : State) : Prop where
  words : ∀ j k : Word, (j ≠ id ∨ k ≠ offset) → t.memRead j k = s.memRead j k
  lengths : ∀ j : Word, t.segLen j = s.segLen j
  active : ∀ j : Word, t.active j = s.active j

/-- Every word of every segment other than `id` reads as before, and no other segment changed its
length or came or went. -/
structure SameMemoryOutside (id : Word) (s t : State) : Prop where
  words : ∀ j k : Word, j ≠ id → t.memRead j k = s.memRead j k
  lengths : ∀ j : Word, j ≠ id → t.segLen j = s.segLen j
  active : ∀ j : Word, j ≠ id → t.active j = s.active j

/-- Every register holds what it held. -/
def SameRegs (s t : State) : Prop := ∀ r : Reg, t.reg r = s.reg r

/-- Every register but `a` holds what it held. -/
def SameRegsBut (a : Reg) (s t : State) : Prop := ∀ r : Reg, r ≠ a → t.reg r = s.reg r

/-- The allocator's `store_size` and recycle queue are as they were (10_state.md R29). -/
structure SameAllocator (s t : State) : Prop where
  storeSize : t.storeSize = s.storeSize
  queue : t.queue = s.queue

/-- Both streams are as they were (10_state.md R36). -/
structure SameStreams (s t : State) : Prop where
  out : t.out = s.out
  inpos : t.inpos = s.inpos

/-- The engine state and the launch parameters are as they were. -/
structure SameEngine (s t : State) : Prop where
  status : t.status = s.status
  launch : t.launch = s.launch

/-- The frame of an instruction that writes register `a` and nothing else (10_state.md R22). -/
structure WritesOnlyReg (a : Reg) (s t : State) : Prop where
  regs : SameRegsBut a s t
  pc : t.pc = s.pc
  memory : SameMemory s t
  allocator : SameAllocator s t
  streams : SameStreams s t
  engine : SameEngine s t

/-- The frame of a failing instruction: the status is `Failed(reason)` and every other component of the
state is as it was (00_scope.md R11; 40_fetch_execute.md R107). -/
structure FailsOnly (reason : FailReason) (s t : State) : Prop where
  status : t.status = .failed reason
  regs : SameRegs s t
  pc : t.pc = s.pc
  memory : SameMemory s t
  allocator : SameAllocator s t
  streams : SameStreams s t
  launch : t.launch = s.launch

/-- The frame of an instruction that writes no register and no segment and leaves the pc to the fetch:
what may change is for the statement to say. -/
structure KeepsRegsPcMemory (s t : State) : Prop where
  regs : SameRegs s t
  pc : t.pc = s.pc
  memory : SameMemory s t
  allocator : SameAllocator s t
  launch : t.launch = s.launch

/-! ## Storage limits and the host's answers -/

/-- The number of words is within `STORE_CAPACITY_WORDS` (00_scope.md R6). -/
def State.fitsCapacity (s : State) (words : Nat) : Prop :=
  ∀ capacity, s.launch.storeCapacityWords = some capacity → words ≤ capacity

/-- The same machine with another host: the answers `INPUT` are exchanged (92_eei_decisions.md D11). -/
def State.withInput (s : State) (input : Config.InputStream) : State :=
  { s with launch := { s.launch with input := input } }

/-! ## Instructions by what they write -/

/-- The register an instruction writes, if it writes one (10_state.md R22). -/
def destination? : Instr → Option Reg
  | .conditionalMove a _ _ => some a
  | .segmentLoad a _ _ => some a
  | .segmentStore _ _ _ => none
  | .add a _ _ => some a
  | .multiply a _ _ => some a
  | .divide a _ _ => some a
  | .nand a _ _ => some a
  | .halt => none
  | .mapSegment b _ => some b
  | .unmapSegment _ => none
  | .output _ => none
  | .input c => some c
  | .loadProgram _ _ => none
  | .loadImmediate a _ => some a
  | .unknown14 => none
  | .unknown15 => none

/-! ## Sequences of allocator operations (42_segment_ops.md R154) -/

/-- The state after a list of identifiers is released, in order. -/
def State.releaseAll (s : State) : List Word → State
  | [] => s
  | id :: ids => (s.release id).releaseAll ids

/-- The identifiers that allocations of the given lengths return, in order, and the state after them. -/
def State.allocAll (s : State) : List Word → Except FailReason (List Word × State)
  | [] => .ok ([], s)
  | n :: ns =>
    match s.alloc n with
    | .error reason => .error reason
    | .ok (id, t) =>
      match t.allocAll ns with
      | .error reason => .error reason
      | .ok (ids, u) => .ok (id :: ids, u)

end Sys2Proof.Machine
end

