-- ==== Sys2Proof/Certificates/Slice0/Obligations.lean ====
section
/-! DEFINITION. The statements for the provers.  Each docstring names the rule of the spec it formalises.
A statement whose docstring says "the model's" rests on a choice of the model, which the docstring names. -/

open Sys2Proof Sys2Proof.Machine

/-! ## Encoding -/

/-- 30_encoding.md R89: the encoder's two formulas, the filler and the ignored register fields 0, the
round trip of every tuple, and the big-endian serialization of R65.  That ignored fields are written as
0 is the spec's own decision (92_eei_decisions.md D15; log entry 10). -/
def Obligations.EncoderFormulasAndRoundTrip : Prop :=
  (∀ (op : Fin 13) (a b c : Reg),
      (encode3 op a b c).toNat = op.val * 2 ^ 28 + a.val * 2 ^ 6 + b.val * 2 ^ 3 + c.val ∧
        decodeFormat (encode3 op a b c) = .threeRegister op a b c) ∧
    (∀ (a : Reg) (v : Nat),
      (encodeLI a v).toNat = 13 * 2 ^ 28 + a.val * 2 ^ 25 + v % 2 ^ 25 ∧
        decodeFormat (encodeLI a v) = .loadImmediate a (BitVec.ofNat 32 (v % 2 ^ 25))) ∧
    (∀ a b c : Reg,
      encode (.conditionalMove a b c) = encode3 0 a b c ∧ encode (.segmentLoad a b c) = encode3 1 a b c ∧
        encode (.segmentStore a b c) = encode3 2 a b c ∧ encode (.add a b c) = encode3 3 a b c ∧
        encode (.multiply a b c) = encode3 4 a b c ∧ encode (.divide a b c) = encode3 5 a b c ∧
        encode (.nand a b c) = encode3 6 a b c ∧ encode .halt = encode3 7 0 0 0 ∧
        encode (.mapSegment b c) = encode3 8 0 b c ∧ encode (.unmapSegment c) = encode3 9 0 0 c ∧
        encode (.output c) = encode3 10 0 0 c ∧ encode (.input c) = encode3 11 0 0 c ∧
        encode (.loadProgram b c) = encode3 12 0 b c) ∧
    (∀ (a : Reg) (v : Word), encode (.loadImmediate a v) = encodeLI a v.toNat) ∧
    (∀ (w : Word) (ws : List Word),
      imageOfWords (w :: ws) =
        [BitVec.ofNat 8 (w.toNat / 2 ^ 24), BitVec.ofNat 8 (w.toNat / 2 ^ 16),
          BitVec.ofNat 8 (w.toNat / 2 ^ 8), BitVec.ofNat 8 w.toNat] ++ imageOfWords ws)

/-- 30_encoding.md R85, R89, for every row of the opcode table: decoding the encoding of a well-formed
instruction gives the instruction back. -/
def Obligations.DecodeOfEncodeIsTheInstruction : Prop :=
  ∀ i : Instr, i.WellFormed = true → decode (encode i) = i

/-- 30_encoding.md R83, R85: every word decodes to a well-formed instruction, and the word the encoder
writes for it decodes the same. -/
def Obligations.EveryWordDecodesWellFormed : Prop :=
  ∀ w : Word, (decode w).WellFormed = true ∧ decode (encode (decode w)) = decode w

/-- 30_encoding.md R86, R87: the complete opcode map.  The fields are given as numbers, so the filler
bits and the fields an operation ignores have no effect, whatever their value. -/
def Obligations.OpcodeMapOfEveryWord : Prop :=
  ∀ (w : Word) (a b c la : Reg) (v : Word),
    a.val = w.toNat / 2 ^ 6 % 8 → b.val = w.toNat / 2 ^ 3 % 8 → c.val = w.toNat % 8 →
    la.val = w.toNat / 2 ^ 25 % 8 → v.toNat = w.toNat % 2 ^ 25 →
      (w.toNat / 2 ^ 28 = 0 → decode w = .conditionalMove a b c) ∧
      (w.toNat / 2 ^ 28 = 1 → decode w = .segmentLoad a b c) ∧
      (w.toNat / 2 ^ 28 = 2 → decode w = .segmentStore a b c) ∧
      (w.toNat / 2 ^ 28 = 3 → decode w = .add a b c) ∧
      (w.toNat / 2 ^ 28 = 4 → decode w = .multiply a b c) ∧
      (w.toNat / 2 ^ 28 = 5 → decode w = .divide a b c) ∧
      (w.toNat / 2 ^ 28 = 6 → decode w = .nand a b c) ∧
      (w.toNat / 2 ^ 28 = 7 → decode w = .halt) ∧
      (w.toNat / 2 ^ 28 = 8 → decode w = .mapSegment b c) ∧
      (w.toNat / 2 ^ 28 = 9 → decode w = .unmapSegment c) ∧
      (w.toNat / 2 ^ 28 = 10 → decode w = .output c) ∧
      (w.toNat / 2 ^ 28 = 11 → decode w = .input c) ∧
      (w.toNat / 2 ^ 28 = 12 → decode w = .loadProgram b c) ∧
      (w.toNat / 2 ^ 28 = 13 → decode w = .loadImmediate la v) ∧
      (w.toNat / 2 ^ 28 = 14 → decode w = .unknown14) ∧
      (w.toNat / 2 ^ 28 = 15 → decode w = .unknown15)

/-- 95_test_vectors.md: words written out there decode to the instructions given there.  The words
0x80000013, 0xA0000001 and 0xC0000008 stand in §2.3 (S8), §2.5 (O1) and §2.4 (C4), the others in §2.1. -/
def Obligations.WrittenOutWordsDecode : Prop :=
  decode 0x00000000#32 = .conditionalMove 0 0 0 ∧ decode 0x3FFFFE53#32 = .add 1 2 3 ∧
    decode 0x0FFFFFFF#32 = .conditionalMove 7 7 7 ∧ decode 0x7FFFFFFF#32 = .halt ∧
    decode 0x500000CA#32 = .divide 3 1 2 ∧ decode 0xD2000048#32 = .loadImmediate 1 72#32 ∧
    decode 0xD1000000#32 = .loadImmediate 0 0x01000000#32 ∧ decode 0x80000013#32 = .mapSegment 2 3 ∧
    decode 0xA0000001#32 = .output 1 ∧ decode 0xC0000008#32 = .loadProgram 1 0 ∧
    decode 0xE0000000#32 = .unknown14 ∧ decode 0xFFFFFFFF#32 = .unknown15

/-- 30_encoding.md R90: reading back the spelling of a well-formed instruction gives the instruction.
The spaces after the commas are the model's spelling of the call form (log entry 8). -/
def Obligations.AssemblerReadsWhatItWrites : Prop :=
  ∀ (i : Instr) (text : List Char), i.WellFormed = true → asmText i = some text →
    parseProgram text = some [i]

/-! ## The engine -/

/-- 40_fetch_execute.md R103: where the pc is in range, the step fetches `seg0[pc]`, increments the pc
and then runs the decoded instruction; the increment does not wrap; only LoadProgram assigns the pc. -/
def Obligations.StepRunsTheFetchedInstruction : Prop :=
  (∀ (s : State) (w : Word), s.status = .running → s.pc.toNat < s.segLen 0#32 →
    s.memRead 0#32 s.pc = .ok w →
      step s = exec (decode w) { s with pc := s.pc + 1 } ∧
        (Memory.wf s.seg → (s.pc + 1).toNat = s.pc.toNat + 1)) ∧
    ∀ (i : Instr) (s t : State), (∀ b c, i ≠ .loadProgram b c) → exec i s = .next t → t.pc = s.pc

/-- 40_fetch_execute.md R102: a fetch beyond segment 0's current length fails the step, and nothing else
changes; an empty segment 0 fails at every pc. -/
def Obligations.FetchBeyondSegment0Fails : Prop :=
  ∀ s : State, s.status = .running →
    (s.segLen 0#32 ≤ s.pc.toNat → ∃ t, step s = .next t ∧ FailsOnly .programCounterOutOfRange s t) ∧
      (s.segLen 0#32 = 0 → ∃ t, step s = .next t ∧ t.status = .failed .programCounterOutOfRange)

/-- 10_state.md R28: the initial status is `Running`; `Halted` and `Failed(_)` are terminal. -/
def Obligations.TerminalStatusHasNoStep : Prop :=
  State.reset.status = .running ∧
    (∀ s : State, s.status = .halted → step s = .fault .engineHalted) ∧
    (∀ (s : State) (reason : FailReason), s.status = .failed reason →
      step s = .fault (.engineFailed reason))

/-- 40_fetch_execute.md R104, which the spec marks as derived: the table of program counter transitions.
A running engine always steps.  The policy of opcodes 14 and 15 is the spec's own decision
(92_eei_decisions.md D3; log entry 10). -/
def Obligations.ProgramCounterTransitions : Prop :=
  ∀ s : State, s.status = .running → ∃ t, step s = .next t ∧
    (s.segLen 0#32 ≤ s.pc.toNat → t.pc = s.pc ∧ t.status = .failed .programCounterOutOfRange) ∧
    (∀ w, s.memRead 0#32 s.pc = .ok w →
      (∀ b c, decode w = .loadProgram b c →
        (t.status = .running ∧ t.pc = s.reg c) ∨ (∃ reason, t.status = .failed reason ∧ t.pc = s.pc + 1)) ∧
      (decode w = .halt → t.pc = s.pc + 1 ∧ t.status = .halted) ∧
      (decode w = .unknown14 ∨ decode w = .unknown15 →
        t.pc = s.pc + 1 ∧
          (s.launch.unknownOpcodePolicy = .fail → t.status = .failed .unknownOpcode) ∧
          (s.launch.unknownOpcodePolicy = .halt → t.status = .halted)) ∧
      (decode w ≠ .halt → decode w ≠ .unknown14 → decode w ≠ .unknown15 →
        (∀ b c, decode w ≠ .loadProgram b c) →
          t.pc = s.pc + 1 ∧ (t.status = .running ∨ ∃ reason, t.status = .failed reason)))

/-- 40_fetch_execute.md R107: a step that fails leaves every register, the segment store and both streams
as they were, and the pc at the fetch offset plus one, or where it was if the fetch itself failed.  The
values after a failure are bookkeeping, the spec's own decision (92_eei_decisions.md D14; log entry 5). -/
def Obligations.FailingStepHasNoPartialEffect : Prop :=
  ∀ (s t : State) (reason : FailReason), step s = .next t → t.status = .failed reason →
    SameRegs s t ∧ SameMemory s t ∧ SameAllocator s t ∧ SameStreams s t ∧ t.launch = s.launch ∧
      (reason = .programCounterOutOfRange → t.pc = s.pc) ∧
      (reason ≠ .programCounterOutOfRange → t.pc = s.pc + 1)

/-- 10_state.md R22: an instruction writes no register but the one of the table, and ConditionalMove
writes it only when `x[c] ≠ 0`. -/
def Obligations.OnlyTheDestinationRegisterIsWritten : Prop :=
  ∀ (i : Instr) (s t : State), exec i s = .next t →
    (∀ r : Reg, destination? i ≠ some r → t.reg r = s.reg r) ∧
      (∀ a b c, i = .conditionalMove a b c → s.reg c = 0#32 → t.reg a = s.reg a)

/-- 00_scope.md R6; 40_fetch_execute.md R110: a step depends on the host through its next answer alone,
and it changes no launch parameter. -/
def Obligations.StepDependsOnTheNextAnswerOnly : Prop :=
  ∀ (s t : State) (input : Config.InputStream), step s = .next t →
    t.launch = s.launch ∧
      (inputAt input s.inpos = s.nextAnswer → step (s.withInput input) = .next (t.withInput input))

/-- 44_io.md R203: a step appends at most one byte to the output and consumes at most one answer; only
an Output that does not fail does the first and only an Input the second. -/
def Obligations.StreamsMoveInExecutionOrder : Prop :=
  ∀ (i : Instr) (s t : State), exec i s = .next t →
    (t.out = s.out ∨ ∃ c, i = .output c ∧ t.status = s.status ∧ t.out = s.out ++ [BitVec.ofNat 8 (s.reg c).toNat]) ∧
      (t.inpos = s.inpos ∨ ∃ c, i = .input c ∧ t.inpos = s.inpos + 1)

/-- The host's placement of a word (the model's withFetchWord, log entry 6): the next step runs exactly
that word. -/
def Obligations.PlacedWordRunsNext : Prop :=
  ∀ (s : State) (w : Nat),
    step (s.withFetchWord 32 w) =
        exec (decode (BitVec.ofNat 32 w)) { s.withFetchWord 32 w with pc := s.pc + 1 } ∧
      SameRegs s (s.withFetchWord 32 w) ∧ SameMemoryOutside 0#32 s (s.withFetchWord 32 w)

/-! ## Register operations -/

/-- 41_register_ops.md R121. -/
def Obligations.ConditionalMoveResult : Prop :=
  ∀ (a b c : Reg) (s : State),
    decode (encode3 0 a b c) = .conditionalMove a b c ∧
      ∃ t, exec (.conditionalMove a b c) s = .next t ∧
        (s.reg c ≠ 0#32 → t.reg a = s.reg b) ∧ (s.reg c = 0#32 → t.reg a = s.reg a) ∧
        WritesOnlyReg a s t

/-- 41_register_ops.md R122. -/
def Obligations.AddResult : Prop :=
  ∀ (a b c : Reg) (s : State),
    decode (encode3 3 a b c) = .add a b c ∧
      ∃ t, exec (.add a b c) s = .next t ∧
        (t.reg a).toNat = ((s.reg b).toNat + (s.reg c).toNat) % 2 ^ 32 ∧ WritesOnlyReg a s t

/-- 41_register_ops.md R123. -/
def Obligations.MultiplyResult : Prop :=
  ∀ (a b c : Reg) (s : State),
    decode (encode3 4 a b c) = .multiply a b c ∧
      ∃ t, exec (.multiply a b c) s = .next t ∧
        (t.reg a).toNat = ((s.reg b).toNat * (s.reg c).toNat) % 2 ^ 32 ∧ WritesOnlyReg a s t

/-- 41_register_ops.md R124. -/
def Obligations.DivideResult : Prop :=
  ∀ (a b c : Reg) (s : State),
    decode (encode3 5 a b c) = .divide a b c ∧
      (s.reg c ≠ 0#32 → ∃ t, exec (.divide a b c) s = .next t ∧
        (t.reg a).toNat = (s.reg b).toNat / (s.reg c).toNat ∧ WritesOnlyReg a s t) ∧
      (s.reg c = 0#32 → ∃ t, exec (.divide a b c) s = .next t ∧ FailsOnly .divideByZero s t)

/-- 41_register_ops.md R125. -/
def Obligations.NandResult : Prop :=
  ∀ (a b c : Reg) (s : State),
    decode (encode3 6 a b c) = .nand a b c ∧
      ∃ t, exec (.nand a b c) s = .next t ∧
        (∀ k < 32, (t.reg a).getLsbD k = !((s.reg b).getLsbD k && (s.reg c).getLsbD k)) ∧
        WritesOnlyReg a s t

/-- 41_register_ops.md R126: the value is the one the decoder produces, below 2^25. -/
def Obligations.LoadImmediateResult : Prop :=
  ∀ (a : Reg) (v : Nat) (s : State),
    decode (encodeLI a v) = .loadImmediate a (BitVec.ofNat 32 (v % 2 ^ 25)) ∧
      ∃ t, exec (.loadImmediate a (BitVec.ofNat 32 (v % 2 ^ 25))) s = .next t ∧
        (t.reg a).toNat = v % 2 ^ 25 ∧ WritesOnlyReg a s t

/-! ## Segment operations -/

/-- 42_segment_ops.md R150, with the checks of 20_memory.md R51. -/
def Obligations.SegmentLoadResult : Prop :=
  ∀ (a b c : Reg) (s : State),
    decode (encode3 1 a b c) = .segmentLoad a b c ∧
      (s.active (s.reg b) = true → (s.reg c).toNat < s.segLen (s.reg b) →
        ∃ t, exec (.segmentLoad a b c) s = .next t ∧
          s.memRead (s.reg b) (s.reg c) = .ok (t.reg a) ∧ WritesOnlyReg a s t) ∧
      (s.active (s.reg b) = false →
        ∃ t, exec (.segmentLoad a b c) s = .next t ∧ FailsOnly .invalidSegmentAccess s t) ∧
      (s.active (s.reg b) = true → s.segLen (s.reg b) ≤ (s.reg c).toNat →
        ∃ t, exec (.segmentLoad a b c) s = .next t ∧ FailsOnly .outOfBounds s t)

/-- 42_segment_ops.md R151, with the checks and the frame of 20_memory.md R52. -/
def Obligations.SegmentStoreResult : Prop :=
  ∀ (a b c : Reg) (s : State),
    decode (encode3 2 a b c) = .segmentStore a b c ∧
      (s.active (s.reg a) = true → (s.reg b).toNat < s.segLen (s.reg a) →
        ∃ t, exec (.segmentStore a b c) s = .next t ∧
          t.memRead (s.reg a) (s.reg b) = .ok (s.reg c) ∧
          SameMemoryBut (s.reg a) (s.reg b) s t ∧ SameRegs s t ∧ t.pc = s.pc ∧ SameAllocator s t ∧
          SameStreams s t ∧ SameEngine s t) ∧
      (s.active (s.reg a) = false →
        ∃ t, exec (.segmentStore a b c) s = .next t ∧ FailsOnly .invalidSegmentAccess s t) ∧
      (s.active (s.reg a) = true → s.segLen (s.reg a) ≤ (s.reg b).toNat →
        ∃ t, exec (.segmentStore a b c) s = .next t ∧ FailsOnly .outOfBounds s t)

/-- 42_segment_ops.md R152 and 20_memory.md R60: the identifier is the oldest released one, else
`store_size`; the new segment is exactly n zero words; the length is read before the identifier is
written; the checks come in the order of R60, and a failing one changes nothing.  The checks of `MAX_SEGMENT_IDS` and
`STORE_CAPACITY_WORDS` and their order are the spec's own decisions (92_eei_decisions.md D6, D7, D10;
log entry 10). -/
def Obligations.MapSegmentResult : Prop :=
  ∀ (b c : Reg) (s : State),
    (∀ a : Reg, decode (encode3 8 a b c) = .mapSegment b c) ∧
      (∀ (id : Word) (rest : List Word), s.queue = id :: rest → s.fitsCapacity (s.used + (s.reg c).toNat) →
        ∃ t, exec (.mapSegment b c) s = .next t ∧ t.reg b = id ∧ t.queue = rest ∧
          t.storeSize = s.storeSize ∧ t.active id = true ∧ t.segLen id = (s.reg c).toNat ∧
          (∀ k : Word, k.toNat < (s.reg c).toNat → t.memRead id k = .ok 0#32) ∧
          SameMemoryOutside id s t ∧ SameRegsBut b s t ∧ t.pc = s.pc ∧ SameStreams s t ∧
          SameEngine s t ∧ (s.Inv → id ≠ 0#32 ∧ s.active id = false)) ∧
      (∀ id : Word, s.queue = [] → s.storeSize ≠ s.launch.maxSegmentIds → id = BitVec.ofNat 32 s.storeSize →
        s.fitsCapacity (s.used + (s.reg c).toNat) →
        ∃ t, exec (.mapSegment b c) s = .next t ∧ t.reg b = id ∧ t.queue = [] ∧
          t.storeSize = s.storeSize + 1 ∧ t.active id = true ∧ t.segLen id = (s.reg c).toNat ∧
          (∀ k : Word, k.toNat < (s.reg c).toNat → t.memRead id k = .ok 0#32) ∧
          SameMemoryOutside id s t ∧ SameRegsBut b s t ∧ t.pc = s.pc ∧ SameStreams s t ∧
          SameEngine s t ∧ (s.Inv → id.toNat = s.storeSize ∧ id ≠ 0#32 ∧ s.active id = false)) ∧
      (s.queue = [] → s.storeSize = s.launch.maxSegmentIds →
        ∃ t, exec (.mapSegment b c) s = .next t ∧ FailsOnly .segmentSpaceExhausted s t) ∧
      (s.queue ≠ [] ∨ s.storeSize ≠ s.launch.maxSegmentIds → ¬ s.fitsCapacity (s.used + (s.reg c).toNat) →
        ∃ t, exec (.mapSegment b c) s = .next t ∧ FailsOnly .storageExhausted s t)

/-- 42_segment_ops.md R153 and 20_memory.md R61.  Which reason each failing case gets is the spec's own
decision (92_eei_decisions.md D9; log entry 10). -/
def Obligations.UnmapSegmentResult : Prop :=
  ∀ (c : Reg) (s : State),
    (∀ a b : Reg, decode (encode3 9 a b c) = .unmapSegment c) ∧
      (s.reg c ≠ 0#32 → s.active (s.reg c) = true → (s.reg c).toNat < s.storeSize →
        ∃ t, exec (.unmapSegment c) s = .next t ∧ t.active (s.reg c) = false ∧
          t.queue = s.queue ++ [s.reg c] ∧ t.storeSize = s.storeSize ∧
          SameMemoryOutside (s.reg c) s t ∧ SameRegs s t ∧ t.pc = s.pc ∧ SameStreams s t ∧
          SameEngine s t ∧ t.released (s.reg c) = true) ∧
      (s.reg c = 0#32 →
        ∃ t, exec (.unmapSegment c) s = .next t ∧ FailsOnly .invalidSegmentAccess s t) ∧
      (s.reg c ≠ 0#32 → s.released (s.reg c) = true →
        ∃ t, exec (.unmapSegment c) s = .next t ∧ FailsOnly .doubleUnmap s t) ∧
      (s.reg c ≠ 0#32 → s.storeSize ≤ (s.reg c).toNat →
        ∃ t, exec (.unmapSegment c) s = .next t ∧ FailsOnly .invalidSegmentAccess s t)

/-- 42_segment_ops.md R155: between its release and its reissue every use of an identifier is fatal. -/
def Obligations.ReleasedIdentifierIsFatalToUse : Prop :=
  ∀ (s : State) (id : Word) (a b c : Reg), s.Inv → s.released id = true →
    (s.reg b = id → ∃ t, exec (.segmentLoad a b c) s = .next t ∧ FailsOnly .invalidSegmentAccess s t) ∧
      (s.reg a = id → ∃ t, exec (.segmentStore a b c) s = .next t ∧ FailsOnly .invalidSegmentAccess s t) ∧
      (s.reg b = id → ∃ t, exec (.loadProgram b c) s = .next t ∧ FailsOnly .invalidSegmentAccess s t) ∧
      (s.reg c = id → ∃ t, exec (.unmapSegment c) s = .next t ∧ FailsOnly .doubleUnmap s t)

/-- 42_segment_ops.md R154, over the allocator's own operations (20_memory.md R60, R61): with unbounded
storage, identifiers released in an order are returned in that order, after those already waiting, and
the allocation after them returns `store_size`. -/
def Obligations.IdentifiersAreReusedInFifoOrder : Prop :=
  ∀ (s : State) (ids lengths : List Word) (n : Word), s.launch.storeCapacityWords = none →
    lengths.length = s.queue.length + ids.length →
      ∃ t, (s.releaseAll ids).allocAll lengths = .ok (s.queue ++ ids, t) ∧ t.queue = [] ∧
        t.storeSize = s.storeSize ∧
        (s.storeSize ≠ s.launch.maxSegmentIds →
          ∃ u, t.alloc n = .ok (BitVec.ofNat 32 s.storeSize, u) ∧ u.storeSize = s.storeSize + 1)

/-- 10_state.md R29, R34: what any instruction may do to the recycle queue and to `store_size`. -/
def Obligations.QueueDiscipline : Prop :=
  ∀ (i : Instr) (s t : State), exec i s = .next t →
    (t.queue = s.queue ∧ t.storeSize = s.storeSize) ∨
      (∃ b c id, i = .mapSegment b c ∧ s.queue = id :: t.queue ∧ t.storeSize = s.storeSize ∧ t.reg b = id) ∨
      (∃ b c, i = .mapSegment b c ∧ s.queue = [] ∧ t.queue = [] ∧ t.storeSize = s.storeSize + 1 ∧
        t.reg b = BitVec.ofNat 32 s.storeSize) ∨
      (∃ c, i = .unmapSegment c ∧ t.queue = s.queue ++ [s.reg c] ∧ t.storeSize = s.storeSize)

/-- 20_memory.md R64: an identifier that is released and then reissued names its new segment, all zero. -/
def Obligations.ReissuedIdentifierNamesTheNewSegment : Prop :=
  ∀ (s : State) (b c d : Reg), s.status = .running → s.queue = [] → s.launch.storeCapacityWords = none →
    s.reg c ≠ 0#32 → s.active (s.reg c) = true → (s.reg c).toNat < s.storeSize →
      ∃ t u, exec (.unmapSegment c) s = .next t ∧ exec (.mapSegment b d) t = .next u ∧
        u.status = .running ∧ u.reg b = s.reg c ∧ u.segLen (s.reg c) = (s.reg d).toNat ∧
        ∀ k : Word, k.toNat < (s.reg d).toNat → u.memRead (s.reg c) k = .ok 0#32

/-- 20_memory.md R63: segments never alias, and after a replacement of segment 0 by a copy of `id` a
write to either one is not seen in the other. -/
def Obligations.SegmentsNeverAlias : Prop :=
  (∀ (s t : State) (id offset v : Word), s.memWrite id offset v = .ok t →
      ∀ j k : Word, j ≠ id → t.memRead j k = s.memRead j k) ∧
    (∀ (s t u : State) (id offset v : Word), id ≠ 0#32 → s.replaceSeg0 id = .ok t →
      (∀ k : Word, t.memRead 0#32 k = s.memRead id k) ∧
        (t.memWrite id offset v = .ok u → ∀ k : Word, u.memRead 0#32 k = s.memRead id k) ∧
        (t.memWrite 0#32 offset v = .ok u → ∀ k : Word, u.memRead id k = s.memRead id k))

/-- 10_state.md R31: no instruction changes the length of an existing segment, but LoadProgram replaces
that of segment 0 by the length of the segment it copies; no segment is longer than 2^32 − 1 words. -/
def Obligations.SegmentLengthIsFixedAtCreation : Prop :=
  ∀ (i : Instr) (s t : State), s.Inv → exec i s = .next t →
    (∀ id : Word, id ≠ 0#32 → s.active id = true → t.active id = true → t.segLen id = s.segLen id) ∧
      (t.segLen 0#32 = s.segLen 0#32 ∨
        ∃ b c, i = .loadProgram b c ∧ s.reg b ≠ 0#32 ∧ t.segLen 0#32 = s.segLen (s.reg b)) ∧
      (∀ id : Word, t.segLen id ≤ 2 ^ 32 - 1)

/-! ## Control operations -/

/-- 43_control.md R180: every word whose opcode field is 7 is Halt, and after it no step exists. -/
def Obligations.HaltResult : Prop :=
  (∀ w : Word, w.toNat / 2 ^ 28 = 7 → decode w = .halt) ∧
    ∀ s : State, ∃ t, exec .halt s = .next t ∧ t.status = .halted ∧ KeepsRegsPcMemory s t ∧
      SameStreams s t ∧ t.exitStatus = some 0 ∧ step t = .fault .engineHalted

/-- 43_control.md R181 and 20_memory.md R62: the jump, the copy, the two failures, and that a target beyond
segment 0 fails the next step only.  The check of `STORE_CAPACITY_WORDS` is the spec's own decision
(92_eei_decisions.md D7; log entry 10). -/
def Obligations.LoadProgramResult : Prop :=
  ∀ (b c : Reg) (s : State),
    (∀ a : Reg, decode (encode3 12 a b c) = .loadProgram b c) ∧
      (s.reg b = 0#32 →
        ∃ t, exec (.loadProgram b c) s = .next t ∧ t.pc = s.reg c ∧ SameMemory s t ∧ SameRegs s t ∧
          SameAllocator s t ∧ SameStreams s t ∧ SameEngine s t) ∧
      (s.reg b ≠ 0#32 → s.active (s.reg b) = true →
        s.fitsCapacity (s.used - s.segLen 0#32 + s.segLen (s.reg b)) →
        ∃ t, exec (.loadProgram b c) s = .next t ∧ t.pc = s.reg c ∧ t.active 0#32 = true ∧
          t.segLen 0#32 = s.segLen (s.reg b) ∧
          (∀ k : Word, t.memRead 0#32 k = s.memRead (s.reg b) k) ∧
          SameMemoryOutside 0#32 s t ∧ SameRegs s t ∧ SameAllocator s t ∧ SameStreams s t ∧
          SameEngine s t) ∧
      (s.reg b ≠ 0#32 → s.active (s.reg b) = false →
        ∃ t, exec (.loadProgram b c) s = .next t ∧ FailsOnly .invalidSegmentAccess s t) ∧
      (s.reg b ≠ 0#32 → s.active (s.reg b) = true →
        ¬ s.fitsCapacity (s.used - s.segLen 0#32 + s.segLen (s.reg b)) →
        ∃ t, exec (.loadProgram b c) s = .next t ∧ FailsOnly .storageExhausted s t) ∧
      (∀ t, exec (.loadProgram b c) s = .next t → t.status = .running →
        t.segLen 0#32 ≤ (s.reg c).toNat →
        ∃ u, step t = .next u ∧ FailsOnly .programCounterOutOfRange t u)

/-- 40_fetch_execute.md R111: each of opcodes 14 and 15, under each policy.  The policy and its default are
the spec's own decision (92_eei_decisions.md D3; log entry 10). -/
def Obligations.UnknownOpcodeResult : Prop :=
  (∀ w : Word, w.toNat / 2 ^ 28 = 14 → decode w = .unknown14) ∧
    (∀ w : Word, w.toNat / 2 ^ 28 = 15 → decode w = .unknown15) ∧
    ∀ s : State,
      (s.launch.unknownOpcodePolicy = .fail →
        (∃ t, exec .unknown14 s = .next t ∧ FailsOnly .unknownOpcode s t) ∧
          ∃ t, exec .unknown15 s = .next t ∧ FailsOnly .unknownOpcode s t) ∧
      (s.launch.unknownOpcodePolicy = .halt →
        (∃ t, exec .unknown14 s = .next t ∧ t.status = .halted ∧ KeepsRegsPcMemory s t ∧ SameStreams s t) ∧
          ∃ t, exec .unknown15 s = .next t ∧ t.status = .halted ∧ KeepsRegsPcMemory s t ∧ SameStreams s t)

/-- 20_memory.md R72, in place: a store into segment 0 at the next pc is what the next step runs. -/
def Obligations.StoreIntoSegment0IsFetchedNext : Prop :=
  ∀ (s : State) (w : Word) (a b c : Reg), s.status = .running → s.memRead 0#32 s.pc = .ok w →
    decode w = .segmentStore a b c → s.reg a = 0#32 → s.reg b = s.pc + 1 →
    (s.pc + 1).toNat < s.segLen 0#32 →
      ∃ t, step s = .next t ∧ t.pc = s.pc + 1 ∧
        step t = exec (decode (s.reg c)) { t with pc := s.pc + 1 + 1 }

/-- 20_memory.md R72, by replacement: after LoadProgram from another segment, the next step runs the word
of that segment at the target, or fails the range check against its length. -/
def Obligations.LoadProgramRunsTheNewSegment0 : Prop :=
  ∀ (s : State) (w : Word) (b c : Reg), s.status = .running → s.memRead 0#32 s.pc = .ok w →
    decode w = .loadProgram b c → s.reg b ≠ 0#32 → s.active (s.reg b) = true →
    s.launch.storeCapacityWords = none →
      ∃ t, step s = .next t ∧ t.status = .running ∧ t.pc = s.reg c ∧
        (∀ v, s.memRead (s.reg b) (s.reg c) = .ok v →
          step t = exec (decode v) { t with pc := s.reg c + 1 }) ∧
        (s.segLen (s.reg b) ≤ (s.reg c).toNat →
          ∃ u, step t = .next u ∧ FailsOnly .programCounterOutOfRange t u)

/-! ## Input and output -/

/-- 44_io.md R200. -/
def Obligations.OutputResult : Prop :=
  ∀ (c : Reg) (s : State),
    (∀ a b : Reg, decode (encode3 10 a b c) = .output c) ∧
      ((s.reg c).toNat ≤ 255 →
        ∃ t, exec (.output c) s = .next t ∧ (∃ byte : Byte, t.out = s.out ++ [byte] ∧
          byte.toNat = (s.reg c).toNat) ∧ t.inpos = s.inpos ∧ t.status = s.status ∧
          KeepsRegsPcMemory s t) ∧
      (255 < (s.reg c).toNat →
        ∃ t, exec (.output c) s = .next t ∧ FailsOnly .outputRangeError s t)

/-- 44_io.md R201: for every answer the host gives next.  Beyond the answers a launch parameter fixes,
the answer is the free value of log entry 3, and the statement holds whatever it is.  That a byte is
zero-extended is the spec's own decision (92_eei_decisions.md D12; log entry 10). -/
def Obligations.InputResult : Prop :=
  ∀ (c : Reg) (s : State),
    (∀ a b : Reg, decode (encode3 11 a b c) = .input c) ∧
      ∃ t, exec (.input c) s = .next t ∧
        (∀ byte : Byte, s.nextAnswer = .byte byte → (t.reg c).toNat = byte.toNat) ∧
        (s.nextAnswer = .eof → t.reg c = 0xFFFFFFFF#32) ∧
        t.inpos = s.inpos + 1 ∧ t.out = s.out ∧ t.status = s.status ∧ SameRegsBut c s t ∧
        t.pc = s.pc ∧ SameMemory s t ∧ SameAllocator s t ∧ t.launch = s.launch

/-- 92_eei_decisions.md D11: the fixture convention, the listed bytes and then `EOF` for ever. -/
def Obligations.FixtureInputIsBytesThenEof : Prop :=
  ∀ (bytes : List Byte) (n : Nat),
    inputAt { given := bytes.map .byte, eofForever := true } n =
      match bytes[n]? with
      | some byte => .byte byte
      | none => .eof

/-! ## Reset, the image load and the end of a run -/

/-- 70_reset_and_hazards.md R250: the state in which the machine is created, for every image that loads. -/
def Obligations.ResetState : Prop :=
  ∀ (launch : Config.Launch) (image : List Byte) (segment0 : Segment),
    loadImage launch.trailingBytesPolicy image = .ok segment0 →
      (∀ r : Reg, (boot launch image).reg r = 0#32) ∧ (boot launch image).pc = 0#32 ∧
        (boot launch image).status = .running ∧ (boot launch image).segment? 0#32 = some segment0 ∧
        (∀ id : Word, id ≠ 0#32 → (boot launch image).active id = false) ∧
        (boot launch image).storeSize = 1 ∧ (boot launch image).queue = [] ∧
        (boot launch image).out = [] ∧ (boot launch image).inpos = 0

/-- 70_reset_and_hazards.md R251 and 20_memory.md R65: what the image load makes of the bytes, under each
policy, and when it fails.  The policy and the limit on the length are the spec's own decisions
(92_eei_decisions.md D4, D5; log entry 10). -/
def Obligations.ImageLoadResult : Prop :=
  ∀ (launch : Config.Launch) (image : List Byte),
    ((image.length % 4 = 0 ∨ launch.trailingBytesPolicy = .truncate) → image.length / 4 ≤ 2 ^ 32 - 1 →
      (boot launch image).status = .running ∧
        (boot launch image).segLen 0#32 = image.length / 4 ∧
        ∀ (k : Word) (b0 b1 b2 b3 : Byte), image[4 * k.toNat]? = some b0 →
          image[4 * k.toNat + 1]? = some b1 → image[4 * k.toNat + 2]? = some b2 →
          image[4 * k.toNat + 3]? = some b3 →
            ∃ v, (boot launch image).memRead 0#32 k = .ok v ∧
              v.toNat = b0.toNat * 2 ^ 24 + b1.toNat * 2 ^ 16 + b2.toNat * 2 ^ 8 + b3.toNat) ∧
      ((image.length % 4 ≠ 0 ∧ launch.trailingBytesPolicy = .fail) ∨ 2 ^ 32 - 1 < image.length / 4 →
        (boot launch image).status = .failed .malformedProgram ∧ (boot launch image).out = [] ∧
          (boot launch image).inpos = 0 ∧
          step (boot launch image) = .fault (.engineFailed .malformedProgram)) ∧
      (image = [] → (boot launch image).segLen 0#32 = 0 ∧
        ∃ t, step (boot launch image) = .next t ∧ t.status = .failed .programCounterOutOfRange)

/-- 95_test_vectors.md C8: with an empty image the first step after reset fails, before any fetch. -/
def Obligations.EmptyImageFailsOnTheFirstStep : Prop :=
  boot Config.Launch.default [] = State.reset ∧
    ∃ t, step State.reset = .next t ∧ t.status = .failed .programCounterOutOfRange ∧ t.pc = 0#32

/-- 60_exceptions.md R229: the exit status is 0 on halt and non-zero on a failure, whatever the open
parameter `EXIT_CODE` answers. -/
def Obligations.ExitStatusIsZeroExactlyOnHalt : Prop :=
  ∀ s : State, (s.exitStatus = some 0 ↔ s.status = .halted) ∧
    (s.exitStatus = none ↔ s.status = .running)

/-! ## Invariants -/

/-- The invariant holds right after reset (10_state.md R30, R32). -/
def Obligations.InvariantAtReset : Prop := State.reset.Inv ∧ State.reset.withinCapacity

/-- The invariant holds when the machine is created, whatever the image (10_state.md R30, R31, R32). -/
def Obligations.InvariantAtBoot : Prop :=
  ∀ (launch : Config.Launch) (image : List Byte), launch.wf → (boot launch image).Inv

/-- Every step keeps the invariant: the segment table stays canonical, identifier 0 stays active, the
active and the released identifiers are exactly those issued, none of them twice (10_state.md R30). -/
def Obligations.StepKeepsTheInvariant : Prop :=
  ∀ s t : State, s.Inv → step s = .next t → t.Inv

/-- 10_state.md R30 of every reachable state: every run of any length from any created machine.  It
follows from InvariantAtBoot and StepKeepsTheInvariant. -/
def Obligations.InvariantOfEveryReachableState : Prop :=
  ∀ (launch : Config.Launch) (image : List Byte) (t : State), launch.wf → Reachable launch image t →
      t.queue.Nodup ∧ t.active 0#32 = true ∧ 0#32 ∉ t.queue ∧
        (∀ id : Word, id.toNat < t.storeSize ↔ (t.active id = true ∨ id ∈ t.queue)) ∧
        (∀ id : Word, ¬ (t.active id = true ∧ id ∈ t.queue))

/-- 10_state.md R33: a step never takes the storage in use beyond `STORE_CAPACITY_WORDS`. -/
def Obligations.StepKeepsStorageWithinCapacity : Prop :=
  ∀ s t : State, s.Inv → s.withinCapacity → step s = .next t → t.withinCapacity

/-- The memory's canonical form (the model's, log entry 1) is one form per contents: two segment tables
that read the same are the same data. -/
def Obligations.EqualMemoriesAreEqualData : Prop :=
  ∀ s t : State, Memory.wf s.seg → Memory.wf t.seg → SameMemory s t → s.seg = t.seg
end

