-- ==== Sys2Proof/Laws/State.lean ====
section
/-! SUPPORT. One lemma per field per update of the state, and the register file's laws: read after write,
and that no update but a register write changes a register. -/

namespace Sys2Proof.Machine.State

/-! ## `setReg` -/

@[simp] theorem setReg_regs (s : State) (i : Reg) (v : Word) :
    (s.setReg i v).regs = s.regs.set i.val v := rfl
@[simp] theorem setReg_pc (s : State) (i : Reg) (v : Word) :
    (s.setReg i v).pc = s.pc := rfl
@[simp] theorem setReg_status (s : State) (i : Reg) (v : Word) :
    (s.setReg i v).status = s.status := rfl
@[simp] theorem setReg_seg (s : State) (i : Reg) (v : Word) :
    (s.setReg i v).seg = s.seg := rfl
@[simp] theorem setReg_storeSize (s : State) (i : Reg) (v : Word) :
    (s.setReg i v).storeSize = s.storeSize := rfl
@[simp] theorem setReg_queue (s : State) (i : Reg) (v : Word) :
    (s.setReg i v).queue = s.queue := rfl
@[simp] theorem setReg_out (s : State) (i : Reg) (v : Word) :
    (s.setReg i v).out = s.out := rfl
@[simp] theorem setReg_inpos (s : State) (i : Reg) (v : Word) :
    (s.setReg i v).inpos = s.inpos := rfl
@[simp] theorem setReg_launch (s : State) (i : Reg) (v : Word) :
    (s.setReg i v).launch = s.launch := rfl

/-! ## `setPc` -/

@[simp] theorem setPc_regs (s : State) (target : Word) :
    (s.setPc target).regs = s.regs := rfl
@[simp] theorem setPc_pc (s : State) (target : Word) :
    (s.setPc target).pc = target := rfl
@[simp] theorem setPc_status (s : State) (target : Word) :
    (s.setPc target).status = s.status := rfl
@[simp] theorem setPc_seg (s : State) (target : Word) :
    (s.setPc target).seg = s.seg := rfl
@[simp] theorem setPc_storeSize (s : State) (target : Word) :
    (s.setPc target).storeSize = s.storeSize := rfl
@[simp] theorem setPc_queue (s : State) (target : Word) :
    (s.setPc target).queue = s.queue := rfl
@[simp] theorem setPc_out (s : State) (target : Word) :
    (s.setPc target).out = s.out := rfl
@[simp] theorem setPc_inpos (s : State) (target : Word) :
    (s.setPc target).inpos = s.inpos := rfl
@[simp] theorem setPc_launch (s : State) (target : Word) :
    (s.setPc target).launch = s.launch := rfl

/-! ## `putSegment` -/

@[simp] theorem putSegment_regs (s : State) (id : Word) (g : Segment) :
    (s.putSegment id g).regs = s.regs := rfl
@[simp] theorem putSegment_pc (s : State) (id : Word) (g : Segment) :
    (s.putSegment id g).pc = s.pc := rfl
@[simp] theorem putSegment_status (s : State) (id : Word) (g : Segment) :
    (s.putSegment id g).status = s.status := rfl
@[simp] theorem putSegment_seg (s : State) (id : Word) (g : Segment) :
    (s.putSegment id g).seg = Table.insert id.toNat g s.seg := rfl
@[simp] theorem putSegment_storeSize (s : State) (id : Word) (g : Segment) :
    (s.putSegment id g).storeSize = s.storeSize := rfl
@[simp] theorem putSegment_queue (s : State) (id : Word) (g : Segment) :
    (s.putSegment id g).queue = s.queue := rfl
@[simp] theorem putSegment_out (s : State) (id : Word) (g : Segment) :
    (s.putSegment id g).out = s.out := rfl
@[simp] theorem putSegment_inpos (s : State) (id : Word) (g : Segment) :
    (s.putSegment id g).inpos = s.inpos := rfl
@[simp] theorem putSegment_launch (s : State) (id : Word) (g : Segment) :
    (s.putSegment id g).launch = s.launch := rfl

/-! ## `release` -/

@[simp] theorem release_regs (s : State) (id : Word) :
    (s.release id).regs = s.regs := rfl
@[simp] theorem release_pc (s : State) (id : Word) :
    (s.release id).pc = s.pc := rfl
@[simp] theorem release_status (s : State) (id : Word) :
    (s.release id).status = s.status := rfl
@[simp] theorem release_seg (s : State) (id : Word) :
    (s.release id).seg = Table.erase id.toNat s.seg := rfl
@[simp] theorem release_storeSize (s : State) (id : Word) :
    (s.release id).storeSize = s.storeSize := rfl
@[simp] theorem release_queue (s : State) (id : Word) :
    (s.release id).queue = s.queue ++ [id] := rfl
@[simp] theorem release_out (s : State) (id : Word) :
    (s.release id).out = s.out := rfl
@[simp] theorem release_inpos (s : State) (id : Word) :
    (s.release id).inpos = s.inpos := rfl
@[simp] theorem release_launch (s : State) (id : Word) :
    (s.release id).launch = s.launch := rfl

/-! ## `outWrite` -/

@[simp] theorem outWrite_regs (s : State) (b : Byte) :
    (s.outWrite b).regs = s.regs := rfl
@[simp] theorem outWrite_pc (s : State) (b : Byte) :
    (s.outWrite b).pc = s.pc := rfl
@[simp] theorem outWrite_status (s : State) (b : Byte) :
    (s.outWrite b).status = s.status := rfl
@[simp] theorem outWrite_seg (s : State) (b : Byte) :
    (s.outWrite b).seg = s.seg := rfl
@[simp] theorem outWrite_storeSize (s : State) (b : Byte) :
    (s.outWrite b).storeSize = s.storeSize := rfl
@[simp] theorem outWrite_queue (s : State) (b : Byte) :
    (s.outWrite b).queue = s.queue := rfl
@[simp] theorem outWrite_out (s : State) (b : Byte) :
    (s.outWrite b).out = s.out ++ [b] := rfl
@[simp] theorem outWrite_inpos (s : State) (b : Byte) :
    (s.outWrite b).inpos = s.inpos := rfl
@[simp] theorem outWrite_launch (s : State) (b : Byte) :
    (s.outWrite b).launch = s.launch := rfl

/-! ## `advanceInput` -/

@[simp] theorem advanceInput_regs (s : State) :
    (s.advanceInput).regs = s.regs := rfl
@[simp] theorem advanceInput_pc (s : State) :
    (s.advanceInput).pc = s.pc := rfl
@[simp] theorem advanceInput_status (s : State) :
    (s.advanceInput).status = s.status := rfl
@[simp] theorem advanceInput_seg (s : State) :
    (s.advanceInput).seg = s.seg := rfl
@[simp] theorem advanceInput_storeSize (s : State) :
    (s.advanceInput).storeSize = s.storeSize := rfl
@[simp] theorem advanceInput_queue (s : State) :
    (s.advanceInput).queue = s.queue := rfl
@[simp] theorem advanceInput_out (s : State) :
    (s.advanceInput).out = s.out := rfl
@[simp] theorem advanceInput_inpos (s : State) :
    (s.advanceInput).inpos = s.inpos + 1 := rfl
@[simp] theorem advanceInput_launch (s : State) :
    (s.advanceInput).launch = s.launch := rfl

/-! ## `advancePc` -/

@[simp] theorem advancePc_regs (s : State) :
    s.advancePc.regs = s.regs := rfl
@[simp] theorem advancePc_pc (s : State) :
    s.advancePc.pc = s.pc + 1 := rfl
@[simp] theorem advancePc_status (s : State) :
    s.advancePc.status = s.status := rfl
@[simp] theorem advancePc_seg (s : State) :
    s.advancePc.seg = s.seg := rfl
@[simp] theorem advancePc_storeSize (s : State) :
    s.advancePc.storeSize = s.storeSize := rfl
@[simp] theorem advancePc_queue (s : State) :
    s.advancePc.queue = s.queue := rfl
@[simp] theorem advancePc_out (s : State) :
    s.advancePc.out = s.out := rfl
@[simp] theorem advancePc_inpos (s : State) :
    s.advancePc.inpos = s.inpos := rfl
@[simp] theorem advancePc_launch (s : State) :
    s.advancePc.launch = s.launch := rfl

/-! ## Registers -/

@[simp] theorem reg_setReg_self (s : State) (i : Reg) (v : Word) : (s.setReg i v).reg i = v := by
  simp [reg, setReg]

theorem reg_setReg_ne (s : State) {i j : Reg} (h : j ≠ i) (v : Word) :
    (s.setReg i v).reg j = s.reg j := by
  have : i.val ≠ j.val := fun e => h (Fin.ext e.symm)
  simp [reg, setReg, Vector.getElem_set_ne, this]

theorem reg_setReg (s : State) (i j : Reg) (v : Word) :
    (s.setReg i v).reg j = if j = i then v else s.reg j := by
  split_ifs with h
  · subst h; exact reg_setReg_self _ _ _
  · exact reg_setReg_ne s h v

/-- Two states with the same register file read the same in every register. -/
theorem reg_congr {s t : State} (h : t.regs = s.regs) (i : Reg) : t.reg i = s.reg i := by
  simp [reg, h]

@[simp] theorem setPc_reg (s : State) (target : Word) (i : Reg) :
    (s.setPc target).reg i = s.reg i := rfl
@[simp] theorem putSegment_reg (s : State) (id : Word) (g : Segment) (i : Reg) :
    (s.putSegment id g).reg i = s.reg i := rfl
@[simp] theorem release_reg (s : State) (id : Word) (i : Reg) : (s.release id).reg i = s.reg i := rfl
@[simp] theorem outWrite_reg (s : State) (b : Byte) (i : Reg) : (s.outWrite b).reg i = s.reg i := rfl
@[simp] theorem advanceInput_reg (s : State) (i : Reg) : s.advanceInput.reg i = s.reg i := rfl
@[simp] theorem advancePc_reg (s : State) (i : Reg) : s.advancePc.reg i = s.reg i := rfl

/-! ## The segment table under each update -/

/-- Two states with the same segment table name the same segments. -/
theorem segment?_congr {s t : State} (h : t.seg = s.seg) (id : Word) :
    t.segment? id = s.segment? id := by
  simp [segment?, h]

@[simp] theorem segment?_setReg (s : State) (i : Reg) (v id : Word) :
    (s.setReg i v).segment? id = s.segment? id := rfl
@[simp] theorem segment?_setPc (s : State) (target id : Word) :
    (s.setPc target).segment? id = s.segment? id := rfl
@[simp] theorem segment?_advancePc (s : State) (id : Word) :
    s.advancePc.segment? id = s.segment? id := rfl

end Sys2Proof.Machine.State
end

