-- ==== Sys2Proof/Laws/Table.lean ====
section
/-! SUPPORT. Laws of the sparse tables that hold the segment table and a segment's words: read after
write, the canonical order of the keys, and that a canonical table is determined by its lookups. -/

namespace Sys2Proof.Machine.Table

variable {α : Type}

/-- The keys strictly rise: half of the canonical form of a memory. -/
abbrev Rising (t : Table α) : Prop := (t.map Prod.fst).Pairwise (· < ·)

@[simp] theorem lookup_nil (k : Nat) : lookup k ([] : Table α) = none := rfl

theorem lookup_cons (k j : Nat) (v : α) (t : Table α) :
    lookup k ((j, v) :: t) = if j = k then some v else lookup k t := rfl

@[simp] theorem lookup_insert_self (k : Nat) (v : α) (t : Table α) :
    lookup k (insert k v t) = some v := by
  induction t with
  | nil => simp [insert, lookup]
  | cons e t ih =>
    obtain ⟨j, u⟩ := e
    unfold insert
    split_ifs with h1 h2
    · simp [lookup]
    · simp [lookup]
    · simp [lookup, ih, Ne.symm h2]

theorem lookup_insert_ne {k i : Nat} (h : i ≠ k) (v : α) (t : Table α) :
    lookup i (insert k v t) = lookup i t := by
  induction t with
  | nil => simp [insert, lookup, Ne.symm h]
  | cons e t ih =>
    obtain ⟨j, u⟩ := e
    unfold insert
    split_ifs with h1 h2
    · simp [lookup, Ne.symm h]
    · subst h2; simp [lookup, Ne.symm h]
    · simp [lookup, ih]

theorem lookup_insert (k i : Nat) (v : α) (t : Table α) :
    lookup i (insert k v t) = if i = k then some v else lookup i t := by
  split_ifs with h
  · subst h; exact lookup_insert_self _ _ _
  · exact lookup_insert_ne h _ _

@[simp] theorem lookup_erase_self (k : Nat) (t : Table α) : lookup k (erase k t) = none := by
  induction t with
  | nil => rfl
  | cons e t ih =>
    obtain ⟨j, u⟩ := e
    unfold erase
    split_ifs with h
    · exact ih
    · simp [lookup, h, ih]

theorem lookup_erase_ne {k i : Nat} (h : i ≠ k) (t : Table α) :
    lookup i (erase k t) = lookup i t := by
  induction t with
  | nil => rfl
  | cons e t ih =>
    obtain ⟨j, u⟩ := e
    unfold erase
    split_ifs with h'
    · subst h'; simp [lookup, Ne.symm h, ih]
    · simp [lookup, ih]

theorem lookup_erase (k i : Nat) (t : Table α) :
    lookup i (erase k t) = if i = k then none else lookup i t := by
  split_ifs with h
  · subst h; exact lookup_erase_self _ _
  · exact lookup_erase_ne h _

/-! ## Membership -/

theorem mem_of_lookup {k : Nat} {v : α} {t : Table α} (h : lookup k t = some v) : (k, v) ∈ t := by
  induction t with
  | nil => simp at h
  | cons e t ih =>
    obtain ⟨j, u⟩ := e
    rw [lookup_cons] at h
    split_ifs at h with hj
    · cases h; subst hj; simp
    · exact List.mem_cons_of_mem _ (ih h)

theorem mem_insert {e : Nat × α} {k : Nat} {v : α} {t : Table α} (h : e ∈ insert k v t) :
    e = (k, v) ∨ e ∈ t := by
  induction t with
  | nil => simpa [insert] using h
  | cons d t ih =>
    obtain ⟨j, u⟩ := d
    unfold insert at h
    split_ifs at h with h1 h2
    · simpa using h
    · rcases List.mem_cons.1 h with h | h
      · exact .inl h
      · exact .inr (List.mem_cons_of_mem _ h)
    · rcases List.mem_cons.1 h with h | h
      · exact .inr (by simp [h])
      · exact (ih h).imp id (List.mem_cons_of_mem _)

theorem mem_erase {e : Nat × α} {k : Nat} {t : Table α} (h : e ∈ erase k t) : e ∈ t ∧ e.1 ≠ k := by
  induction t with
  | nil => simp [erase] at h
  | cons d t ih =>
    obtain ⟨j, u⟩ := d
    unfold erase at h
    split_ifs at h with h1
    · exact (ih h).imp (List.mem_cons_of_mem _) id
    · rcases List.mem_cons.1 h with h | h
      · subst h; exact ⟨by simp, h1⟩
      · exact (ih h).imp (List.mem_cons_of_mem _) id

theorem rising_cons {e : Nat × α} {t : Table α} :
    Rising (e :: t) ↔ (∀ d ∈ t, e.1 < d.1) ∧ Rising t := by
  simp [Rising, List.pairwise_cons]

theorem lookup_of_mem {k : Nat} {v : α} {t : Table α} (ht : Rising t) (h : (k, v) ∈ t) :
    lookup k t = some v := by
  induction t with
  | nil => simp at h
  | cons d t ih =>
    obtain ⟨j, u⟩ := d
    obtain ⟨h1, h2⟩ := rising_cons.1 ht
    rcases List.mem_cons.1 h with h | h
    · cases h; simp [lookup]
    · have := h1 _ h
      rw [lookup_cons, if_neg (by simp at this; omega)]
      exact ih h2 h

theorem lookup_none_of_lt {k : Nat} {t : Table α} (h : ∀ d ∈ t, k < d.1) : lookup k t = none := by
  cases hl : lookup k t with
  | none => rfl
  | some v => exact absurd (h _ (mem_of_lookup hl)) (by simp)

/-! ## The canonical order is kept -/

theorem rising_insert {k : Nat} {v : α} {t : Table α} (ht : Rising t) : Rising (insert k v t) := by
  induction t with
  | nil => simp [insert, Rising]
  | cons d t ih =>
    obtain ⟨j, u⟩ := d
    obtain ⟨h1, h2⟩ := rising_cons.1 ht
    unfold insert
    split_ifs with hk hj
    · refine rising_cons.2 ⟨fun d hd => ?_, ht⟩
      rcases List.mem_cons.1 hd with rfl | hd
      · exact hk
      · exact lt_trans hk (h1 d hd)
    · subst hj; exact rising_cons.2 ⟨h1, h2⟩
    · refine rising_cons.2 ⟨fun d hd => ?_, ih h2⟩
      rcases mem_insert hd with rfl | hd
      · simp only; omega
      · exact h1 d hd

theorem rising_erase {k : Nat} {t : Table α} (ht : Rising t) : Rising (erase k t) := by
  induction t with
  | nil => exact ht
  | cons d t ih =>
    obtain ⟨j, u⟩ := d
    obtain ⟨h1, h2⟩ := rising_cons.1 ht
    unfold erase
    split_ifs with hk
    · exact ih h2
    · exact rising_cons.2 ⟨fun d hd => h1 d (mem_erase hd).1, ih h2⟩

/-! ## A canonical table is its lookups -/

theorem ext {t u : Table α} (ht : Rising t) (hu : Rising u) (h : ∀ k, lookup k t = lookup k u) :
    t = u := by
  induction t generalizing u with
  | nil =>
    cases u with
    | nil => rfl
    | cons e u => simpa [lookup] using h e.1
  | cons e t ih =>
    obtain ⟨j, v⟩ := e
    cases u with
    | nil => simpa [lookup] using h j
    | cons d u =>
      obtain ⟨i, w⟩ := d
      obtain ⟨ht1, ht2⟩ := rising_cons.1 ht
      obtain ⟨hu1, hu2⟩ := rising_cons.1 hu
      have hji : j = i := by
        rcases Nat.lt_trichotomy j i with hlt | heq | hlt
        · have := h j
          rw [lookup_cons, if_pos rfl, lookup_cons, if_neg (by omega),
            lookup_none_of_lt (fun d hd => lt_trans hlt (hu1 d hd))] at this
          simp at this
        · exact heq
        · have := h i
          rw [lookup_cons i i, if_pos rfl, lookup_cons, if_neg (by omega),
            lookup_none_of_lt (fun d hd => lt_trans hlt (ht1 d hd))] at this
          simp at this
      subst hji
      have hvw : v = w := by simpa [lookup] using h j
      subst hvw
      congr 1
      refine ih ht2 hu2 fun k => ?_
      by_cases hk : k = j
      · subst hk
        rw [lookup_none_of_lt ht1, lookup_none_of_lt hu1]
      · simpa [lookup, Ne.symm hk] using h k

/-! ## Sums over a table -/

theorem sum_insert {k : Nat} {v : α} {t : Table α} (f : α → Nat) (ht : Rising t) :
    ((insert k v t).map fun e => f e.2).sum + ((lookup k t).map f).getD 0 =
      (t.map fun e => f e.2).sum + f v := by
  induction t with
  | nil => simp [insert]
  | cons d t ih =>
    obtain ⟨j, u⟩ := d
    obtain ⟨h1, h2⟩ := rising_cons.1 ht
    unfold insert
    split_ifs with hk hj
    · rw [lookup_cons, if_neg (by omega), lookup_none_of_lt (fun d hd => lt_trans hk (h1 d hd))]
      simp; omega
    · subst hj
      simp [lookup]; omega
    · rw [lookup_cons, if_neg (by omega)]
      simp only [List.map_cons, List.sum_cons]
      have := ih h2
      omega

theorem erase_of_lt {k : Nat} {t : Table α} (h : ∀ d ∈ t, k < d.1) : erase k t = t := by
  induction t with
  | nil => rfl
  | cons d t ih =>
    obtain ⟨j, u⟩ := d
    have hj := h (j, u) (by simp)
    rw [erase, if_neg (by simp at hj; omega), ih fun d hd => h d (List.mem_cons_of_mem _ hd)]

theorem sum_erase {k : Nat} {t : Table α} (f : α → Nat) (ht : Rising t) :
    ((erase k t).map fun e => f e.2).sum + ((lookup k t).map f).getD 0 =
      (t.map fun e => f e.2).sum := by
  induction t with
  | nil => simp [erase]
  | cons d t ih =>
    obtain ⟨j, u⟩ := d
    obtain ⟨h1, h2⟩ := rising_cons.1 ht
    unfold erase
    split_ifs with hk
    · subst hk
      rw [erase_of_lt h1, lookup_cons, if_pos rfl]
      simp; omega
    · rw [lookup_cons, if_neg hk]
      simp only [List.map_cons, List.sum_cons]
      have := ih h2
      omega

end Sys2Proof.Machine.Table
end

