-- ==== Sys2Proof/Laws/Memory.lean ====
section
/-! SUPPORT. Laws of segments, of the segment table and of the memory primitives: read after write, what a
write leaves alone, and that every memory operation keeps the canonical form. -/

namespace Sys2Proof.Machine

/-! ## Segments -/

namespace Segment

@[simp] theorem write_len (g : Segment) (i : Nat) (v : Word) : (g.write i v).len = g.len := rfl

@[simp] theorem zeros_len (n : Nat) : (zeros n).len = n := rfl

@[simp] theorem read_zeros (n i : Nat) : (zeros n).read i = 0#32 := rfl

theorem read_write (g : Segment) (i j : Nat) (v : Word) :
    (g.write i v).read j = if j = i then v else g.read j := by
  unfold read write
  by_cases hv : v = 0#32
  · simp only [hv, if_true, Table.lookup_erase]
    split_ifs <;> rfl
  · simp only [hv, if_false, Table.lookup_insert]
    split_ifs <;> rfl

theorem wf_zeros {n : Nat} (h : n ≤ maxSegmentLength) : (zeros n).wf :=
  ⟨h, by simp [zeros], by simp [zeros]⟩

theorem wf_empty : empty.wf := by decide

theorem wf_write {g : Segment} (h : g.wf) {i : Nat} (hi : i < g.len) (v : Word) :
    (g.write i v).wf := by
  obtain ⟨hl, hr, hc⟩ := h
  refine ⟨hl, ?_, ?_⟩
  · unfold write
    split_ifs
    · exact Table.rising_erase hr
    · exact Table.rising_insert hr
  · intro e he
    unfold write at he
    split_ifs at he with hv
    · exact hc e (Table.mem_erase he).1
    · rcases Table.mem_insert he with rfl | he
      · exact ⟨hi, hv⟩
      · exact hc e he

/-- In canonical form, the words of a segment determine its data. -/
theorem ext_of_read {g h : Segment} (hg : g.wf) (hh : h.wf) (hl : g.len = h.len)
    (hr : ∀ i, g.read i = h.read i) : g = h := by
  have key : ∀ {g : Segment}, g.wf → ∀ i, Table.lookup i g.cells =
      if g.read i = 0#32 then none else some (g.read i) := by
    intro g hg i
    unfold read
    cases hc : Table.lookup i g.cells with
    | none => simp
    | some v =>
      have := (hg.2.2 _ (Table.mem_of_lookup hc)).2
      simpa using this
  have hcells : g.cells = h.cells :=
    Table.ext hg.2.1 hh.2.1 fun i => by rw [key hg, key hh, hr]
  cases g; cases h
  simp only at hl hcells
  rw [hl, hcells]

theorem rising_cellsOfWords (ws : List Word) (k : Nat) :
    Table.Rising (cellsOfWords k ws) ∧
      ∀ e ∈ cellsOfWords k ws, k ≤ e.1 ∧ e.1 < k + ws.length ∧ e.2 ≠ 0#32 := by
  induction ws generalizing k with
  | nil => exact ⟨List.Pairwise.nil, by simp [cellsOfWords]⟩
  | cons w ws ih =>
    obtain ⟨ih1, ih2⟩ := ih (k + 1)
    have hstep : ∀ e ∈ cellsOfWords (k + 1) ws, k + 1 ≤ e.1 ∧ e.1 < k + (w :: ws).length ∧ e.2 ≠ 0#32 := by
      intro e he
      obtain ⟨h1, h2, h3⟩ := ih2 e he
      exact ⟨h1, by simp; omega, h3⟩
    unfold cellsOfWords
    split_ifs with hw
    · exact ⟨ih1, fun e he => ⟨by have := (hstep e he).1; omega, (hstep e he).2⟩⟩
    · refine ⟨Table.rising_cons.2 ⟨fun e he => ?_, ih1⟩, fun e he => ?_⟩
      · have := (hstep e he).1; simp only; omega
      · rcases List.mem_cons.1 he with rfl | he
        · exact ⟨le_refl _, by simp, hw⟩
        · exact ⟨by have := (hstep e he).1; omega, (hstep e he).2⟩

theorem lookup_cellsOfWords (ws : List Word) (k i : Nat) :
    (Table.lookup (k + i) (cellsOfWords k ws)).getD 0#32 = (ws[i]?).getD 0#32 := by
  induction ws generalizing k i with
  | nil => simp [cellsOfWords]
  | cons w ws ih =>
    cases i with
    | zero =>
      unfold cellsOfWords
      split_ifs with hw
      · rw [Table.lookup_none_of_lt]
        · simp [hw]
        · intro d hd
          have := ((rising_cellsOfWords ws (k + 1)).2 d hd).1
          omega
      · simp [Table.lookup]
    | succ i =>
      have h : k + (i + 1) = k + 1 + i := by omega
      unfold cellsOfWords
      split_ifs with hw
      · rw [h, ih]; simp
      · rw [Table.lookup_cons, if_neg (by omega), h, ih]; simp

/-- The segment of a word sequence reads as the sequence (20_memory.md R65). -/
theorem read_ofWords (ws : List Word) (i : Nat) : (ofWords ws).read i = (ws[i]?).getD 0#32 := by
  simpa [read, ofWords] using lookup_cellsOfWords ws 0 i

theorem wf_ofWords {ws : List Word} (h : ws.length ≤ maxSegmentLength) : (ofWords ws).wf := by
  obtain ⟨h1, h2⟩ := rising_cellsOfWords ws 0
  exact ⟨h, h1, fun e he => ⟨by have := (h2 e he).2.1; simpa [ofWords] using this, (h2 e he).2.2⟩⟩

end Segment

/-! ## The segment table -/

namespace Memory

theorem wf_insert {m : Memory} (h : Memory.wf m) (id : Word) {g : Segment} (hg : g.wf) :
    Memory.wf (Table.insert id.toNat g m) := by
  refine ⟨Table.rising_insert h.1, fun e he => ?_⟩
  rcases Table.mem_insert he with rfl | he
  · exact ⟨id.isLt, hg⟩
  · exact h.2 e he

theorem wf_erase {m : Memory} (h : Memory.wf m) (k : Nat) : Memory.wf (Table.erase k m) :=
  ⟨Table.rising_erase h.1, fun e he => h.2 e (Table.mem_erase he).1⟩

theorem segment_wf {m : Memory} (h : Memory.wf m) {k : Nat} {g : Segment}
    (hg : Table.lookup k m = some g) : g.wf :=
  (h.2 _ (Table.mem_of_lookup hg)).2

end Memory

/-! ## Segments of a state -/

namespace State

theorem segment?_putSegment (s : State) (id j : Word) (g : Segment) :
    (s.putSegment id g).segment? j = if j = id then some g else s.segment? j := by
  unfold segment? putSegment
  simp only [Table.lookup_insert, BitVec.toNat_inj]

theorem segment?_release (s : State) (id j : Word) :
    (s.release id).segment? j = if j = id then none else s.segment? j := by
  unfold segment? release
  simp only [Table.lookup_erase, BitVec.toNat_inj]

theorem active_iff (s : State) (id : Word) :
    s.active id = true ↔ ∃ g, s.segment? id = some g := by
  simp [active, Option.isSome_iff_exists]

theorem active_eq_false_iff (s : State) (id : Word) :
    s.active id = false ↔ s.segment? id = none := by
  simp [active]

theorem segment_wf {s : State} (h : Memory.wf s.seg) {id : Word} {g : Segment}
    (hg : s.segment? id = some g) : g.wf :=
  Memory.segment_wf h hg

/-- What a read, a length and an activity test of one identifier depend on. -/
theorem memRead_congr {s t : State} {id : Word} (h : t.segment? id = s.segment? id) (offset : Word) :
    t.memRead id offset = s.memRead id offset := by
  simp [memRead, h]

theorem segLen_congr {s t : State} {id : Word} (h : t.segment? id = s.segment? id) :
    t.segLen id = s.segLen id := by
  simp [segLen, h]

theorem active_congr {s t : State} {id : Word} (h : t.segment? id = s.segment? id) :
    t.active id = s.active id := by
  simp [active, h]

/-! ## `MemRead` and `MemWrite` -/

theorem memRead_ok_iff (s : State) (id offset v : Word) :
    s.memRead id offset = .ok v ↔
      ∃ g, s.segment? id = some g ∧ offset.toNat < g.len ∧ g.read offset.toNat = v := by
  unfold memRead
  cases s.segment? id with
  | none => simp
  | some g => by_cases h : g.len ≤ offset.toNat <;> simp [h, Nat.not_le.1, Nat.not_lt.2]

/-- All that a successful store does (20_memory.md R52). -/
theorem memWrite_ok_iff (s t : State) (id offset v : Word) :
    s.memWrite id offset v = .ok t ↔
      ∃ g, s.segment? id = some g ∧ offset.toNat < g.len ∧
        t = s.putSegment id (g.write offset.toNat v) := by
  unfold memWrite
  cases s.segment? id with
  | none => simp
  | some g =>
    by_cases h : g.len ≤ offset.toNat
    · simp [h]
    · simp [h, Nat.lt_of_not_le h, eq_comm]

/-- A store succeeds where the identifier is active and the offset in range (20_memory.md R52). -/
theorem memWrite_of_active {s : State} {id offset : Word} (h : s.active id = true)
    (hi : offset.toNat < s.segLen id) (v : Word) : ∃ t, s.memWrite id offset v = .ok t := by
  obtain ⟨g, hg⟩ := (active_iff _ _).1 h
  rw [segLen, hg] at hi
  exact ⟨_, (memWrite_ok_iff _ _ _ _ _).2 ⟨g, hg, hi, rfl⟩⟩

/-- Read after write, and what a write leaves alone (20_memory.md R52, R70). -/
theorem memRead_memWrite {s t : State} {id offset v : Word} (h : s.memWrite id offset v = .ok t)
    (j k : Word) :
    t.memRead j k = if j = id ∧ k = offset then .ok v else s.memRead j k := by
  obtain ⟨g, hg, hi, rfl⟩ := (memWrite_ok_iff _ _ _ _ _).1 h
  unfold memRead
  rw [segment?_putSegment]
  by_cases hj : j = id
  · subst hj
    simp only [if_true, hg, Segment.write_len, Segment.read_write, BitVec.toNat_inj, true_and]
    by_cases hk : k = offset
    · subst hk; simp [Nat.not_le.2 hi]
    · simp [hk]
  · simp [hj]

theorem segLen_memWrite {s t : State} {id offset v : Word} (h : s.memWrite id offset v = .ok t)
    (j : Word) : t.segLen j = s.segLen j := by
  obtain ⟨g, hg, -, rfl⟩ := (memWrite_ok_iff _ _ _ _ _).1 h
  unfold segLen
  rw [segment?_putSegment]
  by_cases hj : j = id
  · subst hj; simp [hg]
  · simp [hj]

theorem active_memWrite {s t : State} {id offset v : Word} (h : s.memWrite id offset v = .ok t)
    (j : Word) : t.active j = s.active j := by
  obtain ⟨g, hg, -, rfl⟩ := (memWrite_ok_iff _ _ _ _ _).1 h
  unfold active
  rw [segment?_putSegment]
  by_cases hj : j = id
  · subst hj; simp [hg]
  · simp [hj]

/-! ## The canonical form is kept -/

theorem wf_memWrite {s t : State} {id offset v : Word} (hs : Memory.wf s.seg)
    (h : s.memWrite id offset v = .ok t) : Memory.wf t.seg := by
  obtain ⟨g, hg, hi, rfl⟩ := (memWrite_ok_iff _ _ _ _ _).1 h
  exact Memory.wf_insert hs id (Segment.wf_write (segment_wf hs hg) hi v)

theorem wf_release {s : State} (hs : Memory.wf s.seg) (id : Word) : Memory.wf (s.release id).seg :=
  Memory.wf_erase hs _

/-! ## Storage in use -/

theorem used_putSegment {s : State} (hs : Memory.wf s.seg) (id : Word) (g : Segment) :
    (s.putSegment id g).used + s.segLen id = s.used + g.len := by
  have h := Table.sum_insert (k := id.toNat) (v := g) (t := s.seg) Segment.len hs.1
  have h2 : ((Table.lookup id.toNat s.seg).map Segment.len).getD 0 = s.segLen id := by
    unfold segLen segment?
    cases Table.lookup id.toNat s.seg <;> rfl
  rw [h2] at h
  exact h

theorem used_release {s : State} (hs : Memory.wf s.seg) (id : Word) :
    (s.release id).used + s.segLen id = s.used := by
  have h := Table.sum_erase (k := id.toNat) (t := s.seg) Segment.len hs.1
  have h2 : ((Table.lookup id.toNat s.seg).map Segment.len).getD 0 = s.segLen id := by
    unfold segLen segment?
    cases Table.lookup id.toNat s.seg <;> rfl
  rw [h2] at h
  exact h

end State

end Sys2Proof.Machine
end

