-- ==== Sys2Proof/Laws/Allocator.lean ====
section
/-! SUPPORT. One lemma per allocator operation that says once everything it can do: `alloc`, `release` with
UnmapSegment's checks, and `replaceSeg0` (20_memory.md R60, R61, R62). -/

namespace Sys2Proof.Machine.State

/-! ## `takeId` and `alloc` -/

theorem takeId_of_queue {s : State} {id : Word} {rest : List Word} (h : s.queue = id :: rest) :
    s.takeId = (id, { s with queue := rest }) := by
  simp [takeId, h]

theorem takeId_of_empty {s : State} (h : s.queue = []) :
    s.takeId = (BitVec.ofNat 32 s.storeSize, { s with storeSize := s.storeSize + 1 }) := by
  simp [takeId, h]

/-- Taking an identifier touches the queue and `store_size` alone. -/
theorem takeId_rest (s : State) :
    s.takeId.2.regs = s.regs ∧ s.takeId.2.pc = s.pc ∧ s.takeId.2.status = s.status ∧
      s.takeId.2.seg = s.seg ∧ s.takeId.2.out = s.out ∧ s.takeId.2.inpos = s.inpos ∧
      s.takeId.2.launch = s.launch := by
  unfold takeId
  split <;> simp

theorem takeId_segment? (s : State) (id : Word) : s.takeId.2.segment? id = s.segment? id :=
  segment?_congr (takeId_rest s).2.2.2.1 id

/-- All that a successful allocation does (20_memory.md R60). -/
theorem alloc_ok_iff (s t : State) (n id : Word) :
    s.alloc n = .ok (id, t) ↔
      s.idsExhausted = false ∧ s.exceedsCapacity (s.used + n.toNat) = false ∧ id = s.takeId.1 ∧
        t = s.takeId.2.putSegment id (Segment.zeros n.toNat) := by
  unfold alloc
  split_ifs with h1 h2
  · simp [h1]
  · simp [h2]
  · simp only [Except.ok.injEq, Prod.mk.injEq, Bool.not_eq_true] at *
    simp only [h1, h2, true_and]
    constructor
    · rintro ⟨h3, h4⟩; subst h3; exact ⟨rfl, h4.symm⟩
    · rintro ⟨h3, h4⟩; subst h3; exact ⟨rfl, h4.symm⟩

/-- When an allocation fails, and with which reason: exhaustion of identifiers comes first
(20_memory.md R60; 60_exceptions.md R224). -/
theorem alloc_error_iff (s : State) (n : Word) (reason : FailReason) :
    s.alloc n = .error reason ↔
      (s.idsExhausted = true ∧ reason = .segmentSpaceExhausted) ∨
        (s.idsExhausted = false ∧ s.exceedsCapacity (s.used + n.toNat) = true ∧
          reason = .storageExhausted) := by
  unfold alloc
  split_ifs with h1 h2
  · simpa [h1] using eq_comm
  · simpa [h1, h2] using eq_comm
  · simp [h1, h2]

theorem idsExhausted_eq_true_iff (s : State) :
    s.idsExhausted = true ↔ s.queue = [] ∧ s.storeSize = s.launch.maxSegmentIds := by
  simp [idsExhausted]

theorem idsExhausted_of_queue {s : State} (h : s.queue ≠ []) : s.idsExhausted = false := by
  cases hq : s.queue with
  | nil => exact absurd hq h
  | cons _ _ => simp [idsExhausted, hq]

/-- At the default capacity, ∞, nothing exceeds it (00_scope.md R6). -/
theorem exceedsCapacity_unbounded {s : State} (h : s.launch.storeCapacityWords = none) (n : Nat) :
    s.exceedsCapacity n = false := by
  simp [exceedsCapacity, h]

theorem exceedsCapacity_bounded {s : State} {capacity : Nat}
    (h : s.launch.storeCapacityWords = some capacity) (n : Nat) :
    s.exceedsCapacity n = true ↔ capacity < n := by
  simp [exceedsCapacity, h]

theorem exceedsCapacity_congr {s t : State} (h : t.launch = s.launch) (n : Nat) :
    t.exceedsCapacity n = s.exceedsCapacity n := by
  simp [exceedsCapacity, h]

/-- The segments after an allocation (20_memory.md R60): the new one is all zero. -/
theorem segment?_alloc {s t : State} {n id : Word} (h : s.alloc n = .ok (id, t)) (j : Word) :
    t.segment? j = if j = id then some (Segment.zeros n.toNat) else s.segment? j := by
  obtain ⟨-, -, -, rfl⟩ := (alloc_ok_iff _ _ _ _).1 h
  rw [segment?_putSegment, takeId_segment?]

/-- What an allocation leaves alone. -/
theorem alloc_rest {s t : State} {n id : Word} (h : s.alloc n = .ok (id, t)) :
    t.regs = s.regs ∧ t.pc = s.pc ∧ t.status = s.status ∧ t.out = s.out ∧ t.inpos = s.inpos ∧
      t.launch = s.launch := by
  obtain ⟨-, -, -, rfl⟩ := (alloc_ok_iff _ _ _ _).1 h
  obtain ⟨h1, h2, h3, -, h5, h6, h7⟩ := takeId_rest s
  exact ⟨h1, h2, h3, h5, h6, h7⟩

theorem wf_alloc {s t : State} {n id : Word} (hs : Memory.wf s.seg) (h : s.alloc n = .ok (id, t)) :
    Memory.wf t.seg := by
  obtain ⟨-, -, -, rfl⟩ := (alloc_ok_iff _ _ _ _).1 h
  rw [putSegment_seg, (takeId_rest s).2.2.2.1]
  exact Memory.wf_insert hs id (Segment.wf_zeros (by have := n.isLt; simp only [maxSegmentLength]; omega))

/-! ## `release` and UnmapSegment's checks -/

/-- All that a successful unmap needs and does (42_segment_ops.md R153). -/
theorem unmap_ok_iff (s t : State) (id : Word) :
    unmap s id = .ok t ↔
      id ≠ 0#32 ∧ s.released id = false ∧ id.toNat < s.storeSize ∧ t = s.release id := by
  unfold unmap
  split_ifs with h1 h2 h3
  · simp [h1]
  · simp [h2]
  · simp [Nat.not_lt.2 h3]
  · simp only [Except.ok.injEq, ne_eq, h1, not_false_eq_true, true_and, Nat.lt_of_not_le h3,
      Bool.not_eq_true _ ▸ h2]
    exact eq_comm

/-- When an unmap fails, and with which reason (42_segment_ops.md R153). -/
theorem unmap_error_iff (s : State) (id : Word) (reason : FailReason) :
    unmap s id = .error reason ↔
      (id = 0#32 ∧ reason = .invalidSegmentAccess) ∨
        (id ≠ 0#32 ∧ s.released id = true ∧ reason = .doubleUnmap) ∨
          (id ≠ 0#32 ∧ s.released id = false ∧ s.storeSize ≤ id.toNat ∧
            reason = .invalidSegmentAccess) := by
  unfold unmap
  split_ifs with h1 h2 h3
  · simpa [h1] using eq_comm
  · simpa [h1, h2] using eq_comm
  · simpa [h1, h2, h3] using eq_comm
  · simp [h1, h2, h3]

theorem released_eq_true_iff (s : State) (id : Word) :
    s.released id = true ↔ id.toNat < s.storeSize ∧ s.active id = false ∧ id ∈ s.queue := by
  simp [released, and_assoc]

/-! ## `replaceSeg0` and LoadProgram's copy -/

/-- All that a successful replacement does (20_memory.md R62). -/
theorem replaceSeg0_ok_iff (s t : State) (id : Word) :
    s.replaceSeg0 id = .ok t ↔
      ∃ g, s.segment? id = some g ∧ s.exceedsCapacity (s.used - s.segLen 0#32 + g.len) = false ∧
        t = s.putSegment 0#32 g := by
  unfold replaceSeg0
  cases s.segment? id with
  | none => simp
  | some g =>
    simp only [Option.some.injEq, exists_eq_left']
    split_ifs with h
    · simp [h]
    · simpa [h] using eq_comm

/-- When a replacement fails, and with which reason (43_control.md R181; 60_exceptions.md R224). -/
theorem replaceSeg0_error_iff (s : State) (id : Word) (reason : FailReason) :
    s.replaceSeg0 id = .error reason ↔
      (s.segment? id = none ∧ reason = .invalidSegmentAccess) ∨
        ∃ g, s.segment? id = some g ∧ s.exceedsCapacity (s.used - s.segLen 0#32 + g.len) = true ∧
          reason = .storageExhausted := by
  unfold replaceSeg0
  cases s.segment? id with
  | none => simpa using eq_comm
  | some g =>
    simp only [Option.some.injEq, exists_eq_left', reduceCtorEq, false_and, false_or]
    split_ifs with h
    · simpa [h] using eq_comm
    · simp [h]

/-- LoadProgram's copy, successful: none for identifier 0, a replacement otherwise (43_control.md R181). -/
theorem loadSegment0_ok_iff (s t : State) (id : Word) :
    loadSegment0 s id = .ok t ↔ (id = 0#32 ∧ t = s) ∨ (id ≠ 0#32 ∧ s.replaceSeg0 id = .ok t) := by
  unfold loadSegment0
  split_ifs with h
  · simpa [h] using eq_comm
  · simp [h]

theorem loadSegment0_error_iff (s : State) (id : Word) (reason : FailReason) :
    loadSegment0 s id = .error reason ↔ id ≠ 0#32 ∧ s.replaceSeg0 id = .error reason := by
  unfold loadSegment0
  split_ifs with h <;> simp [h]

theorem wf_replaceSeg0 {s t : State} {id : Word} (hs : Memory.wf s.seg)
    (h : s.replaceSeg0 id = .ok t) : Memory.wf t.seg := by
  obtain ⟨g, hg, -, rfl⟩ := (replaceSeg0_ok_iff _ _ _).1 h
  exact Memory.wf_insert hs 0#32 (segment_wf hs hg)

end Sys2Proof.Machine.State
end

