-- ==== Sys2Proof/Laws/Decode.lean ====
section
/-! SUPPORT. The fields of an encoded word (30_encoding.md R82, R83, R89). -/

namespace Sys2Proof

/-! ## Format ThreeRegister -/

theorem opcodeField_encode3 : ∀ (op : Fin 13) (a b c : Reg),
    opcodeField (encode3 op a b c) = BitVec.ofNat 4 op.val := by
  intro op a b c
  have hop : ∀ op : Fin 13, (BitVec.ofNat 32 op.val <<< 28).extractLsb' 28 4 = BitVec.ofNat 4 op.val := by
    decide
  have ha : ∀ a : Reg, (BitVec.ofNat 32 a.val <<< 6).extractLsb' 28 4 = 0#4 := by decide
  have hb : ∀ b : Reg, (BitVec.ofNat 32 b.val <<< 3).extractLsb' 28 4 = 0#4 := by decide
  have hc : ∀ c : Reg, (BitVec.ofNat 32 c.val).extractLsb' 28 4 = 0#4 := by decide
  simp only [opcodeField, encode3, BitVec.extractLsb'_or, hop, ha, hb, hc, BitVec.or_zero]

/-! ## Format LoadImmediate -/

/-- The immediate has no bit from 25 on. -/
theorem testBit_immediate {v k : Nat} (h : 25 ≤ k) : (v % immediateModulus).testBit k = false := by
  rw [show immediateModulus = 2 ^ 25 from rfl, Nat.testBit_mod_two_pow]
  simp; omega

/-- A field of `encodeLI` above the immediate is that field of its two other parts. -/
theorem extract_encodeLI (a : Reg) (v start len : Nat) (h : 25 ≤ start) :
    (encodeLI a v).extractLsb' start len =
      ((13#32 <<< 28) ||| (BitVec.ofNat 32 a.val <<< 25)).extractLsb' start len := by
  have : (BitVec.ofNat 32 (v % immediateModulus)).extractLsb' start len = 0#len := by
    ext k hk
    simp only [BitVec.getElem_extractLsb', BitVec.getLsbD_ofNat, testBit_immediate (k := start + k)
      (by omega), Bool.and_false, BitVec.getElem_zero]
  simp only [encodeLI, BitVec.extractLsb'_or, this, BitVec.or_zero]

theorem opcodeField_encodeLI (a : Reg) (v : Nat) : opcodeField (encodeLI a v) = 13#4 := by
  rw [opcodeField, extract_encodeLI _ _ _ _ (by omega)]
  revert a; decide

theorem fieldImmediateA_encodeLI (a : Reg) (v : Nat) : fieldImmediateA (encodeLI a v) = a := by
  rw [fieldImmediateA, extract_encodeLI _ _ _ _ (by omega)]
  revert a; decide

theorem fieldValue_encodeLI (a : Reg) (v : Nat) :
    fieldValue (encodeLI a v) = BitVec.ofNat 32 (v % immediateModulus) := by
  have h : ((13#32 <<< 28) ||| (BitVec.ofNat 32 a.val <<< 25)).extractLsb' 0 25 = 0#25 := by
    revert a; decide
  unfold fieldValue encodeLI
  rw [BitVec.extractLsb'_or, h, BitVec.zero_or]
  apply BitVec.eq_of_toNat_eq
  simp only [BitVec.toNat_setWidth, BitVec.extractLsb'_toNat, BitVec.toNat_ofNat, Nat.shiftRight_zero,
    immediateModulus]
  omega

/-! ## Format Unknown -/

theorem opcodeField_encodeUnknown : ∀ r : Fin 2,
    opcodeField (encodeUnknown r) = BitVec.ofNat 4 (14 + r.val) := by
  decide

end Sys2Proof
end

