-- ==== Sys2Proof/Laws/Exec.lean ====
section
/-! SUPPORT. One spec lemma per instruction: the next states its meaning can answer with, each with the
condition under which it does.  Together with `complete_eq_next_iff` they are the inversion of `exec`. -/

namespace Sys2Proof.Machine

/-- A handler that can fail ends in its effect, or in a failure with no effect (00_scope.md R11). -/
theorem complete_eq_next_iff (s t : State) (r : Except FailReason State) :
    complete s r = .next t ↔
      r = .ok t ∨ ∃ reason, r = .error reason ∧ t = { s with status := .failed reason } := by
  cases r with
  | ok u => simp [complete]
  | error reason => simp [complete, raise, eq_comm]

theorem raise_eq_next_iff (s t : State) (reason : FailReason) :
    raise reason s = .next t ↔ t = { s with status := .failed reason } := by
  simp [raise, eq_comm]

theorem execConditionalMove_next_iff (a b c : Reg) (s t : State) :
    exec (.conditionalMove a b c) s = .next t ↔
      (s.reg c ≠ 0#32 ∧ t = s.setReg a (s.reg b)) ∨ (s.reg c = 0#32 ∧ t = s) := by
  by_cases h : s.reg c = 0#32 <;> simp [exec, execConditionalMove, conditionHolds, h, eq_comm]

theorem execAdd_next_iff (a b c : Reg) (s t : State) :
    exec (.add a b c) s = .next t ↔ t = s.setReg a (s.reg b + s.reg c) := by
  simp [exec, execAdd, addWord, eq_comm]

theorem execMultiply_next_iff (a b c : Reg) (s t : State) :
    exec (.multiply a b c) s = .next t ↔ t = s.setReg a (s.reg b * s.reg c) := by
  simp [exec, execMultiply, mulWord, eq_comm]

theorem execDivide_next_iff (a b c : Reg) (s t : State) :
    exec (.divide a b c) s = .next t ↔
      (s.reg c ≠ 0#32 ∧ t = s.setReg a (s.reg b / s.reg c)) ∨
        (s.reg c = 0#32 ∧ t = { s with status := .failed .divideByZero }) := by
  by_cases h : s.reg c = 0#32 <;>
    simp [exec, execDivide, divWord, h, complete, raise, Except.map, eq_comm]

theorem execNand_next_iff (a b c : Reg) (s t : State) :
    exec (.nand a b c) s = .next t ↔ t = s.setReg a (~~~(s.reg b &&& s.reg c)) := by
  simp [exec, execNand, nandWord, eq_comm]

theorem execLoadImmediate_next_iff (a : Reg) (value : Word) (s t : State) :
    exec (.loadImmediate a value) s = .next t ↔ t = s.setReg a value := by
  simp [exec, execLoadImmediate, immediateOperand, eq_comm]

theorem execSegmentLoad_next_iff (a b c : Reg) (s t : State) :
    exec (.segmentLoad a b c) s = .next t ↔
      (∃ v, s.memRead (s.reg b) (s.reg c) = .ok v ∧ t = s.setReg a v) ∨
        ∃ reason, s.memRead (s.reg b) (s.reg c) = .error reason ∧
          t = { s with status := .failed reason } := by
  cases h : s.memRead (s.reg b) (s.reg c) <;>
    simp [exec, execSegmentLoad, h, complete, raise, Except.map, eq_comm]

theorem execSegmentStore_next_iff (a b c : Reg) (s t : State) :
    exec (.segmentStore a b c) s = .next t ↔
      s.memWrite (s.reg a) (s.reg b) (s.reg c) = .ok t ∨
        ∃ reason, s.memWrite (s.reg a) (s.reg b) (s.reg c) = .error reason ∧
          t = { s with status := .failed reason } :=
  complete_eq_next_iff _ _ _

theorem execMapSegment_next_iff (b c : Reg) (s t : State) :
    exec (.mapSegment b c) s = .next t ↔
      (∃ id u, s.alloc (s.reg c) = .ok (id, u) ∧ t = u.setReg b id) ∨
        ∃ reason, s.alloc (s.reg c) = .error reason ∧ t = { s with status := .failed reason } := by
  cases h : s.alloc (s.reg c) with
  | error reason => simp [exec, execMapSegment, h, complete, raise, Except.map, eq_comm]
  | ok r =>
    obtain ⟨id, u⟩ := r
    simp [exec, execMapSegment, h, complete, Except.map, eq_comm]

theorem execUnmapSegment_next_iff (c : Reg) (s t : State) :
    exec (.unmapSegment c) s = .next t ↔
      unmap s (s.reg c) = .ok t ∨
        ∃ reason, unmap s (s.reg c) = .error reason ∧ t = { s with status := .failed reason } :=
  complete_eq_next_iff _ _ _

theorem execHalt_next_iff (s t : State) :
    exec .halt s = .next t ↔ t = { s with status := .halted } := by
  simp [exec, execHalt, haltEngine, eq_comm]

theorem execLoadProgram_next_iff (b c : Reg) (s t : State) :
    exec (.loadProgram b c) s = .next t ↔
      (∃ u, loadSegment0 s (s.reg b) = .ok u ∧ t = u.setPc (s.reg c)) ∨
        ∃ reason, loadSegment0 s (s.reg b) = .error reason ∧
          t = { s with status := .failed reason } := by
  cases h : loadSegment0 s (s.reg b) <;>
    simp [exec, execLoadProgram, h, complete, raise, Except.map, eq_comm]

theorem execOutput_next_iff (c : Reg) (s t : State) :
    exec (.output c) s = .next t ↔
      ((s.reg c).toNat ≤ 255 ∧ t = s.outWrite (lowByte (s.reg c))) ∨
        (255 < (s.reg c).toNat ∧ t = { s with status := .failed .outputRangeError }) := by
  by_cases h : (s.reg c).toNat ≤ 255
  · simp [exec, execOutput, fitsByte, h, Nat.not_lt.2 h, complete, eq_comm]
  · simp [exec, execOutput, fitsByte, h, Nat.lt_of_not_le h, complete, raise, eq_comm]

theorem execInput_next_iff (c : Reg) (s t : State) :
    exec (.input c) s = .next t ↔ t = s.advanceInput.setReg c (answerWord s.nextAnswer) := by
  simp [exec, execInput, eq_comm]

/-- What opcodes 14 and 15 do, by the policy (40_fetch_execute.md R111). -/
theorem unknownOpcode_next_iff (s t : State) :
    unknownOpcode s = .next t ↔
      (s.launch.unknownOpcodePolicy = .fail ∧ t = { s with status := .failed .unknownOpcode }) ∨
        (s.launch.unknownOpcodePolicy = .halt ∧ t = { s with status := .halted }) := by
  unfold unknownOpcode
  cases s.launch.unknownOpcodePolicy <;> simp [raise, haltEngine, eq_comm]

theorem execUnknown14_next_iff (s t : State) :
    exec .unknown14 s = .next t ↔
      (s.launch.unknownOpcodePolicy = .fail ∧ t = { s with status := .failed .unknownOpcode }) ∨
        (s.launch.unknownOpcodePolicy = .halt ∧ t = { s with status := .halted }) :=
  unknownOpcode_next_iff s t

theorem execUnknown15_next_iff (s t : State) :
    exec .unknown15 s = .next t ↔
      (s.launch.unknownOpcodePolicy = .fail ∧ t = { s with status := .failed .unknownOpcode }) ∨
        (s.launch.unknownOpcodePolicy = .halt ∧ t = { s with status := .halted }) :=
  unknownOpcode_next_iff s t

/-! ## Memory that an update does not touch -/

theorem SameMemory.of_seg {s t : State} (h : t.seg = s.seg) : SameMemory s t where
  words id offset := State.memRead_congr (State.segment?_congr h id) offset
  lengths id := State.segLen_congr (State.segment?_congr h id)
  active id := State.active_congr (State.segment?_congr h id)

/-- The frame of a register write. -/
theorem WritesOnlyReg.setReg (s : State) (a : Reg) (v : Word) : WritesOnlyReg a s (s.setReg a v) where
  regs _ h := State.reg_setReg_ne s h v
  pc := rfl
  memory := SameMemory.of_seg rfl
  allocator := ⟨rfl, rfl⟩
  streams := ⟨rfl, rfl⟩
  engine := ⟨rfl, rfl⟩

/-- The frame of a failure. -/
theorem FailsOnly.failed (s : State) (reason : FailReason) :
    FailsOnly reason s { s with status := .failed reason } where
  status := rfl
  regs _ := rfl
  pc := rfl
  memory := SameMemory.of_seg rfl
  allocator := ⟨rfl, rfl⟩
  streams := ⟨rfl, rfl⟩
  launch := rfl

end Sys2Proof.Machine
end

