-- ==== Sys2Proof/Laws/PerInstr.lean ====
section
/-! SUPPORT. Statements made of each instruction as syntax, one lemma per constructor. -/

/-- The opcode field of an instruction's word is the opcode of its row (30_encoding.md R81, R87). -/
def Sys2Proof.Laws.OpcodeField.Statement (i : Sys2Proof.Instr) : Prop :=
  (Sys2Proof.opcodeField (Sys2Proof.encode i)).toNat = i.opcode

namespace Sys2Proof.Laws.OpcodeField

theorem threeRegister (op : Fin 13) (a b c : Reg) :
    (opcodeField (encode3 op a b c)).toNat = op.val := by
  rw [opcodeField_encode3]
  simp only [BitVec.toNat_ofNat]
  omega

theorem conditionalMove (a b c : Reg) : Statement (.conditionalMove a b c) := threeRegister 0 a b c
theorem segmentLoad (a b c : Reg) : Statement (.segmentLoad a b c) := threeRegister 1 a b c
theorem segmentStore (a b c : Reg) : Statement (.segmentStore a b c) := threeRegister 2 a b c
theorem add (a b c : Reg) : Statement (.add a b c) := threeRegister 3 a b c
theorem multiply (a b c : Reg) : Statement (.multiply a b c) := threeRegister 4 a b c
theorem divide (a b c : Reg) : Statement (.divide a b c) := threeRegister 5 a b c
theorem nand (a b c : Reg) : Statement (.nand a b c) := threeRegister 6 a b c
theorem halt : Statement .halt := threeRegister 7 0 0 0
theorem mapSegment (b c : Reg) : Statement (.mapSegment b c) := threeRegister 8 0 b c
theorem unmapSegment (c : Reg) : Statement (.unmapSegment c) := threeRegister 9 0 0 c
theorem output (c : Reg) : Statement (.output c) := threeRegister 10 0 0 c
theorem input (c : Reg) : Statement (.input c) := threeRegister 11 0 0 c
theorem loadProgram (b c : Reg) : Statement (.loadProgram b c) := threeRegister 12 0 b c

theorem loadImmediate (a : Reg) (value : Word) : Statement (.loadImmediate a value) := by
  unfold Statement encode
  rw [opcodeField_encodeLI]
  rfl

theorem unknown14 : Statement .unknown14 := by
  unfold Statement; decide

theorem unknown15 : Statement .unknown15 := by
  unfold Statement; decide

end Sys2Proof.Laws.OpcodeField
end

