-- ==== Sys2Proof/Laws/Step.lean ====
section
/-! SUPPORT. What one step of the engine can do, said once (40_fetch_execute.md R101). -/

namespace Sys2Proof.Machine

theorem State.fetch?_eq_some_iff (s : State) (w : Word) :
    s.fetch? = some w ↔
      ∃ g, s.segment? 0#32 = some g ∧ s.pc.toNat < g.len ∧ g.read s.pc.toNat = w := by
  unfold State.fetch?
  cases s.segment? 0#32 with
  | none => simp
  | some g =>
    by_cases h : g.len ≤ s.pc.toNat
    · simp [h, Nat.not_lt.2 h]
    · simp [h, Nat.lt_of_not_le h]

/-- The fetch reads the word a load from segment 0 at `pc` would read (20_memory.md R53). -/
theorem State.fetch?_eq_some_iff_memRead (s : State) (w : Word) :
    s.fetch? = some w ↔ s.memRead 0#32 s.pc = .ok w := by
  rw [State.fetch?_eq_some_iff, State.memRead_ok_iff]

theorem State.fetch?_eq_none_iff (s : State) : s.fetch? = none ↔ s.segLen 0#32 ≤ s.pc.toNat := by
  unfold State.fetch? State.segLen
  cases s.segment? 0#32 with
  | none => simp
  | some g => by_cases h : g.len ≤ s.pc.toNat <;> simp [h]

/-- A step that answers a next state was taken by a running engine, and it either failed the range check
or ran the instruction it fetched. -/
theorem step_cases {s t : State} (h : step s = .next t) :
    s.status = .running ∧
      ((s.fetch? = none ∧ t = { s with status := .failed .programCounterOutOfRange }) ∨
        ∃ w, s.fetch? = some w ∧ exec (decode w) s.advancePc = .next t) := by
  unfold step at h
  split at h
  · rename_i hr
    refine ⟨hr, ?_⟩
    split at h
    · rename_i hf
      exact .inl ⟨hf, (raise_eq_next_iff _ _ _).1 h⟩
    · rename_i w hf
      exact .inr ⟨w, hf, h⟩
  · cases h
  · cases h

end Sys2Proof.Machine
end

