-- ==== Sys2Proof/Tests/Slice0.lean ====
section
/-! SUPPORT. The model's own tests: the check of WellFormed, words written out from the spec's encodings,
one step of each instruction with the results of spec/95_test_vectors.md, and for every statement with
hypotheses a concrete state that meets them.  Expected results come from the spec. -/

namespace Sys2Proof.Tests

open Sys2Proof.Machine

/-! ## Helpers -/

/-- Segment 0 holds `words`, and segment 1 holds 10, 20. -/
def twoSegments (words : List Word) : State :=
  { State.initial Config.Launch.default (Segment.ofWords words) with
    seg := [(0, Segment.ofWords words), (1, Segment.ofWords [10, 20])], storeSize := 2 }

/-- Segment 0 holds `words`, and identifier 1 was issued and released. -/
def oneReleased (words : List Word) : State :=
  { State.initial Config.Launch.default (Segment.ofWords words) with storeSize := 2, queue := [1] }

/-- The state with x1, x2 and x3 set. -/
def regs123 (s : State) (x1 x2 x3 : Word) : State := ((s.setReg 1 x1).setReg 2 x2).setReg 3 x3

/-- An empty segment 0 and x1, x2, x3 set. -/
def plain (x1 x2 x3 : Word) : State := regs123 State.reset x1 x2 x3

/-- The value of a register after an instruction. -/
def regAfter (i : Instr) (s : State) (r : Reg) : Option Word :=
  (nextState? (exec i s)).map fun t => t.reg r

/-- The status after an instruction. -/
def statusAfter (i : Instr) (s : State) : Option Status := (nextState? (exec i s)).map fun t => t.status

/-! ## WellFormed refuses an ill-formed term (30_encoding.md R83) -/

theorem test_wellFormed_refuses_wide_immediate :
    (Instr.loadImmediate 0 0x02000000#32).WellFormed = false := by decide

theorem test_wellFormed_accepts_largest_immediate :
    (Instr.loadImmediate 7 0x01FFFFFF#32).WellFormed = true := by decide

/-! ## Decoding: words of spec/95_test_vectors.md and 30_encoding.md R90, every constructor -/

theorem test_decode_conditionalMove : decode 0x000001D4#32 = .conditionalMove 7 2 4 := by decide
theorem test_decode_segmentLoad : decode 0x10000110#32 = .segmentLoad 4 2 0 := by decide
theorem test_decode_segmentStore : decode 0x20000083#32 = .segmentStore 2 0 3 := by decide
theorem test_decode_add_ignores_filler : decode 0x3FFFFE53#32 = .add 1 2 3 := by decide
theorem test_decode_multiply : decode 0x40000053#32 = .multiply 1 2 3 := by decide
theorem test_decode_divide : decode 0x500000CA#32 = .divide 3 1 2 := by decide
theorem test_decode_nand : decode 0x60000180#32 = .nand 6 0 0 := by decide
theorem test_decode_halt_ignores_fields : decode 0x7FFFFFFF#32 = .halt := by decide
theorem test_decode_mapSegment : decode 0x80000029#32 = .mapSegment 5 1 := by decide
theorem test_decode_unmapSegment : decode 0x90000002#32 = .unmapSegment 2 := by decide
theorem test_decode_output : decode 0xA0000004#32 = .output 4 := by decide
theorem test_decode_input : decode 0xB0000001#32 = .input 1 := by decide
theorem test_decode_loadProgram : decode 0xC0000010#32 = .loadProgram 2 0 := by decide
theorem test_decode_loadImmediate : decode 0xDFFFFFFF#32 = .loadImmediate 7 33554431#32 := by decide
theorem test_decode_unknown14 : decode 0xE0000000#32 = .unknown14 := by decide
theorem test_decode_unknown15 : decode 0xFFFFFFFF#32 = .unknown15 := by decide

/-- encodeLI(3, 2^25 + 5) = 0xD6000005 (95_test_vectors.md E6). -/
theorem test_encodeLI_reduces : encodeLI 3 33554437 = 0xD6000005#32 := by decide

/-- LoadProgram(r1, r0) is 0xC0000008 (90_conflicts.md, cross-file check). -/
theorem test_encode_loadProgram : encode (.loadProgram 1 0) = 0xC0000008#32 := by decide

theorem test_decodeBytes_big_endian :
    decodeBytes [0xD2, 0x00, 0x00, 0x48, 0x70] = .ok (.loadImmediate 1 72#32, [0x70]) := by decide

theorem test_decodeBytes_truncated : decodeBytes [0x70, 0x00, 0x00] = .error .truncated := by decide

theorem test_decodeTableWord : decodeTableWord 32 0x30000053 = some (.add 1 2 3) := by decide

/-! ## Assembler syntax (30_encoding.md R90; 95_test_vectors.md P1, E8) -/

theorem test_assemble_hi :
    assemble "LoadImmediate(r1,72), LoadImmediate(r2,105), Output(r1), Output(r2), Halt".toList =
      some [0xD2000048#32, 0xD4000069#32, 0xA0000001#32, 0xA0000002#32, 0x70000000#32] := by decide

theorem test_parse_lines_and_hexadecimal :
    parseProgram "LoadImmediate(r5, 0x21)\nDivide(r3,r1,r2)\nHalt\n".toList =
      some [.loadImmediate 5 33#32, .divide 3 1 2, .halt] := by decide

theorem test_parse_refuses_unknown_register : parseProgram "Output(r8)".toList = none := by decide

/-! ## Register operations (95_test_vectors.md §2.2) -/

theorem test_conditionalMove_moves : regAfter (.conditionalMove 1 2 3) (plain 7 9 1) 1 = some 9#32 := by
  decide
/-- V3: the test uses x1 from before the write. -/
theorem test_conditionalMove_tests_old_value :
    regAfter (.conditionalMove 1 2 1) (plain 5 0 0) 1 = some 0#32 := by decide
/-- V4. -/
theorem test_add_wraps : regAfter (.add 1 2 3) (plain 0 0xFFFFFFFF 2) 1 = some 1#32 := by decide
/-- V6. -/
theorem test_add_doubles : regAfter (.add 1 1 1) (plain 0x80000001 0 0) 1 = some 2#32 := by decide
/-- V9. -/
theorem test_multiply_low_word :
    regAfter (.multiply 1 2 3) (plain 0 0x12345678 0x9ABCDEF0) 1 = some 0x242D2080#32 := by decide
/-- V12. -/
theorem test_divide_unsigned :
    regAfter (.divide 1 2 3) (plain 0 0xFFFFFFFF 2) 1 = some 0x7FFFFFFF#32 := by decide
/-- V15. -/
theorem test_divide_by_zero :
    statusAfter (.divide 1 2 3) (plain 7 208 0) = some (.failed .divideByZero) ∧
      regAfter (.divide 1 2 3) (plain 7 208 0) 1 = some 7#32 := by decide
/-- V20. -/
theorem test_nand :
    regAfter (.nand 1 2 3) (plain 0 0xF0F0F0F0 0xFF00FF00) 1 = some 0x0FFF0FFF#32 := by decide
/-- V21, and bit 24 does not sign-extend. -/
theorem test_loadImmediate_zero_extends :
    regAfter (decode 0xDFFFFFFF#32) (plain 0 0 0) 7 = some 0x01FFFFFF#32 := by decide

/-! ## Segment operations (95_test_vectors.md §2.3) -/

/-- S1. -/
theorem test_segmentLoad : regAfter (.segmentLoad 1 2 3) (regs123 (twoSegments []) 0 1 1) 1 = some 20#32 := by
  decide
/-- S2 and S4. -/
theorem test_segmentLoad_fails :
    statusAfter (.segmentLoad 1 2 3) (regs123 (twoSegments []) 0 1 2) = some (.failed .outOfBounds) ∧
      statusAfter (.segmentLoad 1 2 3) (regs123 (oneReleased []) 0 1 0) =
        some (.failed .invalidSegmentAccess) := by decide
/-- S5: segment 1 gets 88 at offset 0; the word after it keeps its value. -/
theorem test_segmentStore :
    (nextState? (exec (.segmentStore 1 2 3) (regs123 (twoSegments []) 1 0 88))).map
      (fun t => (t.segment? 1, t.segLen 1)) = some (some (Segment.ofWords [88, 20]), 2) := by decide
/-- S6. -/
theorem test_segmentStore_does_not_grow :
    statusAfter (.segmentStore 1 2 3) (regs123 (twoSegments []) 1 2 88) = some (.failed .outOfBounds) := by
  decide
/-- S9: the length is read before the identifier is written. -/
theorem test_mapSegment_fresh :
    (nextState? (exec (.mapSegment 3 3) (plain 0 0 3))).map
      (fun t => (t.reg 3, t.segment? 1, t.storeSize)) = some (1, some (Segment.zeros 3), 2) := by decide
/-- P5, offset 6: the identifier released first is reused first. -/
theorem test_mapSegment_reuses_oldest :
    (nextState? (exec (.mapSegment 2 3) { regs123 (oneReleased []) 0 0 1 with
        storeSize := 3, queue := [2, 1] })).map
      (fun t => (t.reg 2, t.queue, t.storeSize)) = some (2, [1], 3) := by decide
/-- S14, S16: the two limits of the storage. -/
theorem test_mapSegment_exhausted :
    statusAfter (.mapSegment 2 1) { plain 1 0 0 with
        launch := { Config.Launch.default with maxSegmentIds := 1 } } =
          some (.failed .segmentSpaceExhausted) ∧
      statusAfter (.mapSegment 2 1) { regs123 (twoSegments [1, 2, 3, 4, 5, 6]) 3 0 0 with
        launch := { Config.Launch.default with storeCapacityWords := some 10 } } =
          some (.failed .storageExhausted) := by decide
/-- R153's example. -/
theorem test_unmapSegment :
    (nextState? (exec (.unmapSegment 2) (regs123 (twoSegments []) 0 1 0))).map
      (fun t => (t.queue, t.active 1)) = some ([1], false) := by decide
/-- S10, S11, S12. -/
theorem test_unmapSegment_fails :
    statusAfter (.unmapSegment 2) (plain 0 0 0) = some (.failed .invalidSegmentAccess) ∧
      statusAfter (.unmapSegment 2) (plain 0 7 0) = some (.failed .invalidSegmentAccess) ∧
      statusAfter (.unmapSegment 2) (regs123 (oneReleased []) 0 1 0) = some (.failed .doubleUnmap) := by
  decide

/-! ## Control operations (95_test_vectors.md §2.4) -/

/-- C1, as one step. -/
theorem test_halt :
    (nextState? (step (twoSegments [0x7FFFFFFF]))).map (fun t => (t.status, t.pc)) =
      some (.halted, 1) := by decide
/-- C3: a jump beyond segment 0 succeeds. -/
theorem test_loadProgram_jumps :
    (nextState? (exec (.loadProgram 1 2) (regs123 (twoSegments [0, 0, 0, 0, 0]) 0 9 0))).map
      (fun t => (t.pc, t.segLen 0)) = some (9, 5) := by decide
/-- C5, with segment 1 = [10, 20]. -/
theorem test_loadProgram_copies :
    (nextState? (exec (.loadProgram 1 1) (regs123 (twoSegments [0]) 1 0 0))).map
      (fun t => (t.pc, t.segment? 0, t.active 1)) =
        some (1, some (Segment.ofWords [10, 20]), true) := by decide
/-- C7, under each policy. -/
theorem test_unknown14_by_policy :
    statusAfter .unknown14 (plain 0 0 0) = some (.failed .unknownOpcode) ∧
      statusAfter .unknown14 { plain 0 0 0 with
        launch := { Config.Launch.default with unknownOpcodePolicy := .halt } } = some .halted := by decide
/-- C7: the pc after the step. -/
theorem test_unknown15_step :
    (nextState? (step (twoSegments [0xFFFFFFFF]))).map (fun t => (t.status, t.pc)) =
      some (.failed .unknownOpcode, 1) := by decide
/-- C8: an empty segment 0 fails before any fetch, with the pc unchanged. -/
theorem test_pc_out_of_range :
    (nextState? (step (twoSegments []))).map (fun t => (t.status, t.pc)) =
      some (.failed .programCounterOutOfRange, 0) := by decide

/-! ## Input and output (95_test_vectors.md §2.5) -/

/-- O2 and O3. -/
theorem test_output_range :
    (nextState? (exec (.output 1) (plain 255 0 0))).map (fun t => t.out) = some [255] ∧
      (nextState? (exec (.output 1) (plain 256 0 0))).map (fun t => (t.out, t.status)) =
        some ([], .failed .outputRangeError) := by decide
/-- I1: the byte 0xFF is zero-extended. -/
theorem test_input_zero_extends :
    (nextState? (exec (.input 1) ((plain 0 0 0).withInput { given := [.byte 0xFF], eofForever := true }))).map
      (fun t => (t.reg 1, t.inpos)) = some (0x000000FF, 1) := by decide
/-- I2: end-of-stream. -/
theorem test_input_eof :
    (nextState? (exec (.input 1) ((plain 0 0 0).withInput { given := [], eofForever := true }))).map
      (fun t => (t.reg 1, t.inpos)) = some (0xFFFFFFFF, 1) := by decide

/-! ## Image load (95_test_vectors.md §2.6) -/

/-- L1. -/
theorem test_boot_big_endian :
    (boot Config.Launch.default [0xD2, 0x00, 0x00, 0x48, 0x70, 0x00, 0x00, 0x00]).segment? 0 =
      some (Segment.ofWords [0xD2000048, 0x70000000]) := by decide
/-- L2, under each policy. -/
theorem test_boot_trailing_byte :
    (boot Config.Launch.default [0xD2, 0x00, 0x00, 0x48, 0x70]).status = .failed .malformedProgram ∧
      (boot { Config.Launch.default with trailingBytesPolicy := .truncate }
        [0xD2, 0x00, 0x00, 0x48, 0x70]).segment? 0 = some (Segment.ofWords [0xD2000048]) := by decide

/-! ## Witnesses: states and operands that meet the hypotheses of the statements -/

theorem active_twoSegments (words : List Word) (id : Word) :
    (twoSegments words).active id = decide (id = 0#32 ∨ id = 1#32) := by
  unfold State.active State.segment? twoSegments
  simp only [Table.lookup]
  by_cases h0 : id = 0#32
  · subst h0; simp
  · by_cases h1 : id = 1#32
    · subst h1; simp
    · have h0' : ¬ 0 = id.toNat := fun e => h0 (BitVec.eq_of_toNat_eq (by simp [← e]))
      have h1' : ¬ 1 = id.toNat := fun e => h1 (BitVec.eq_of_toNat_eq (by simp [← e]))
      simp [h0, h1, h0', h1']

theorem active_oneReleased (words : List Word) (id : Word) :
    (oneReleased words).active id = decide (id = 0#32) := by
  unfold State.active State.segment? oneReleased State.initial
  simp only [Table.lookup]
  by_cases h0 : id = 0#32
  · subst h0; simp
  · have h0' : ¬ 0 = id.toNat := fun e => h0 (BitVec.eq_of_toNat_eq (by simp [← e]))
    simp [h0, h0']

/-- A word below 2 is 0 or 1. -/
theorem word_lt_two {id : Word} (h : id.toNat < 2) : id = 0#32 ∨ id = 1#32 := by
  have : id.toNat = 0 ∨ id.toNat = 1 := by omega
  exact this.imp (fun e => BitVec.eq_of_toNat_eq (by simpa using e))
    (fun e => BitVec.eq_of_toNat_eq (by simpa using e))

/-- A state with two active segments meets the invariant. -/
theorem inv_twoSegments {words : List Word} (h : words.length ≤ maxSegmentLength) :
    (twoSegments words).Inv where
  memory := by
    refine ⟨by simp [twoSegments], fun e he => ?_⟩
    simp only [twoSegments, List.mem_cons, List.not_mem_nil, or_false] at he
    rcases he with rfl | rfl
    · exact ⟨by simp, Segment.wf_ofWords h⟩
    · exact ⟨by simp, by decide⟩
  segment0 := by simp [active_twoSegments]
  issued id := by
    rw [active_twoSegments]
    simp only [decide_eq_true_eq]
    rintro (rfl | rfl) <;> simp [twoSegments]
  queueNodup := by simp [twoSegments, State.initial]
  queueReleased := by simp [twoSegments, State.initial]
  dense id hid := by
    rw [active_twoSegments]
    exact .inl (by simpa using word_lt_two hid)
  storeSize := by simp [twoSegments, State.initial, Config.Launch.default, wordModulus]
  launch := show Config.Launch.default.wf by decide

/-- A state with a released identifier meets the invariant. -/
theorem inv_oneReleased {words : List Word} (h : words.length ≤ maxSegmentLength) :
    (oneReleased words).Inv where
  memory := by
    refine ⟨by simp [oneReleased, State.initial], fun e he => ?_⟩
    simp only [oneReleased, State.initial, List.mem_cons, List.not_mem_nil, or_false] at he
    subst he
    exact ⟨by simp, Segment.wf_ofWords h⟩
  segment0 := by simp [active_oneReleased]
  issued id := by
    rw [active_oneReleased]
    simp only [decide_eq_true_eq]
    rintro rfl; simp [oneReleased]
  queueNodup := by simp [oneReleased]
  queueReleased id hid := by
    simp only [oneReleased, List.mem_cons, List.not_mem_nil, or_false] at hid
    subst hid
    exact ⟨by simp [oneReleased], by simp [active_oneReleased]⟩
  dense id hid := by
    rcases word_lt_two hid with rfl | rfl
    · exact .inl (by simp [active_oneReleased])
    · exact .inr (by simp [oneReleased])
  storeSize := by simp [oneReleased, State.initial, Config.Launch.default, wordModulus]
  launch := show Config.Launch.default.wf by decide

/-- A register write keeps the invariant, so the witnesses may set registers. -/
theorem inv_setReg {s : State} (h : s.Inv) (r : Reg) (v : Word) : (s.setReg r v).Inv where
  memory := h.memory
  segment0 := h.segment0
  issued := h.issued
  queueNodup := h.queueNodup
  queueReleased := h.queueReleased
  dense := h.dense
  storeSize := h.storeSize
  launch := h.launch

theorem inv_regs123 {s : State} (h : s.Inv) (x1 x2 x3 : Word) : (regs123 s x1 x2 x3).Inv :=
  inv_setReg (inv_setReg (inv_setReg h _ _) _ _) _ _

theorem witness_DecodeOfEncodeIsTheInstruction :
    (Instr.loadImmediate 7 33554431#32).WellFormed = true ∧ Instr.unknown15.WellFormed = true := by decide

/-- Each of the 16 clauses, with the fields 1, 2, 3 in a ThreeRegister word and filler set. -/
theorem witness_OpcodeMapOfEveryWord : ∀ op : Fin 16,
    let w := BitVec.ofNat 32 (op.val * 2 ^ 28 + 0x0FFFFE53)
    w.toNat / 2 ^ 28 = op.val ∧ 1 = w.toNat / 2 ^ 6 % 8 ∧ 2 = w.toNat / 2 ^ 3 % 8 ∧
      3 = w.toNat % 8 ∧ 7 = w.toNat / 2 ^ 25 % 8 ∧ (0x01FFFE53#32).toNat = w.toNat % 2 ^ 25 := by
  decide

theorem witness_AssemblerReadsWhatItWrites :
    (Instr.loadImmediate 1 72#32).WellFormed = true ∧
      asmText (.loadImmediate 1 72#32) = some "LoadImmediate(r1, 72)".toList := by decide

theorem witness_StepRunsTheFetchedInstruction :
    (twoSegments [0x70000000]).status = .running ∧
      (twoSegments [0x70000000]).pc.toNat < (twoSegments [0x70000000]).segLen 0#32 ∧
      (twoSegments [0x70000000]).memRead 0#32 (twoSegments [0x70000000]).pc = .ok 0x70000000#32 ∧
      Memory.wf (twoSegments [0x70000000]).seg := by decide

theorem witness_StepRunsTheFetchedInstruction_pc :
    (∀ b c, Instr.halt ≠ .loadProgram b c) ∧
      exec .halt State.reset = .next { State.reset with status := .halted } :=
  ⟨by decide, rfl⟩

/-- The pc exactly at the end of segment 0, and an empty segment 0. -/
theorem witness_FetchBeyondSegment0Fails :
    ((twoSegments [0]).setPc 1).status = .running ∧ ((twoSegments [0]).setPc 1).segLen 0#32 ≤ 1 ∧
      ((twoSegments [0]).setPc 1).pc.toNat = 1 ∧ (twoSegments []).status = .running ∧
      (twoSegments []).segLen 0#32 = 0 := by decide

theorem witness_TerminalStatusHasNoStep :
    { State.reset with status := .halted }.status = .halted ∧
      { State.reset with status := .failed .divideByZero }.status = .failed .divideByZero := by decide

/-- Each row of the table: out of range; LoadProgram; Halt; both illegal opcodes; another instruction. -/
theorem witness_ProgramCounterTransitions :
    (twoSegments []).status = .running ∧ (twoSegments []).segLen 0#32 ≤ (twoSegments []).pc.toNat ∧
      (twoSegments [0xC0000007]).memRead 0#32 0 = .ok 0xC0000007#32 ∧
      decode 0xC0000007#32 = .loadProgram 0 7 ∧
      (twoSegments [0x70000000]).memRead 0#32 0 = .ok 0x70000000#32 ∧ decode 0x70000000#32 = .halt ∧
      (twoSegments [0xE0000000]).memRead 0#32 0 = .ok 0xE0000000#32 ∧
      decode 0xE0000000#32 = .unknown14 ∧
      (twoSegments [0xE0000000]).launch.unknownOpcodePolicy = .fail ∧
      (twoSegments [0x30000053]).memRead 0#32 0 = .ok 0x30000053#32 ∧
      decode 0x30000053#32 = .add 1 2 3 := by decide

/-- A failure of the fetch and a failure of an instruction. -/
theorem witness_FailingStepHasNoPartialEffect :
    (∃ t, step (twoSegments []) = .next t ∧ t.status = .failed .programCounterOutOfRange) ∧
      ∃ t, step (twoSegments [0x50000000]) = .next t ∧ t.status = .failed .divideByZero :=
  ⟨⟨_, rfl, rfl⟩, ⟨_, rfl, rfl⟩⟩

/-- Also of the statements over one `exec` that answers a next state. -/
theorem witness_OnlyTheDestinationRegisterIsWritten :
    (∃ t, exec (.add 1 2 3) (plain 1 2 3) = .next t) ∧ destination? (.add 1 2 3) ≠ some 2 ∧
      (∃ t, exec (.conditionalMove 1 2 3) (plain 1 2 0) = .next t) ∧ (plain 1 2 0).reg 3 = 0#32 :=
  ⟨⟨_, rfl⟩, by decide, ⟨_, rfl⟩, by decide⟩

theorem witness_StepDependsOnTheNextAnswerOnly :
    (∃ t, step ((twoSegments [0xB0000001]).withInput { given := [.eof], eofForever := false }) = .next t) ∧
      inputAt { given := [], eofForever := true }
          ((twoSegments [0xB0000001]).withInput { given := [.eof], eofForever := false }).inpos =
        ((twoSegments [0xB0000001]).withInput { given := [.eof], eofForever := false }).nextAnswer :=
  ⟨⟨_, rfl⟩, by decide⟩

theorem witness_StreamsMoveInExecutionOrder :
    (∃ t, exec (.output 1) (plain 255 0 0) = .next t) ∧ ∃ t, exec (.input 1) (plain 0 0 0) = .next t :=
  ⟨⟨_, rfl⟩, ⟨_, rfl⟩⟩

theorem witness_ConditionalMoveResult :
    (plain 7 9 1).reg 3 ≠ 0#32 ∧ (plain 7 9 0).reg 3 = 0#32 := by decide

theorem witness_DivideResult : (plain 7 208 1).reg 3 ≠ 0#32 ∧ (plain 7 208 0).reg 3 = 0#32 := by decide

/-- The last offset of segment 1, the first beyond it, and a released identifier. -/
theorem witness_SegmentLoadResult :
    let s := regs123 (twoSegments []) 0 1 1
    let t := regs123 (twoSegments []) 0 1 2
    let u := regs123 (oneReleased []) 0 1 0
    (s.active (s.reg 2) = true ∧ (s.reg 3).toNat < s.segLen (s.reg 2)) ∧
      (t.active (t.reg 2) = true ∧ t.segLen (t.reg 2) ≤ (t.reg 3).toNat) ∧
      u.active (u.reg 2) = false := by decide

theorem witness_SegmentStoreResult :
    let s := regs123 (twoSegments []) 1 1 88
    let t := regs123 (twoSegments []) 1 2 88
    let u := regs123 (oneReleased []) 1 0 88
    (s.active (s.reg 1) = true ∧ (s.reg 2).toNat < s.segLen (s.reg 1)) ∧
      (t.active (t.reg 1) = true ∧ t.segLen (t.reg 1) ≤ (t.reg 2).toNat) ∧
      u.active (u.reg 1) = false := by decide

/-- At the default capacity nothing exceeds it. -/
theorem fits_default {s : State} (h : s.launch.storeCapacityWords = none) (n : Nat) : s.fitsCapacity n := by
  intro capacity hc
  rw [h] at hc
  cases hc

/-- Two segments where no third identifier can be issued. -/
def twoIds : State :=
  { twoSegments [] with launch := { Config.Launch.default with maxSegmentIds := 2 } }

/-- Two segments, of two words together, where the capacity is one word. -/
def oneWord : State :=
  { twoSegments [] with launch := { Config.Launch.default with storeCapacityWords := some 1 } }

/-- Reuse, a fresh identifier, and both limits. -/
theorem witness_MapSegmentResult :
    ((oneReleased []).queue = 1#32 :: [] ∧ (oneReleased []).fitsCapacity ((oneReleased []).used + 0) ∧
        (oneReleased []).Inv) ∧
      ((twoSegments []).queue = [] ∧ (twoSegments []).storeSize ≠ (twoSegments []).launch.maxSegmentIds ∧
        (2#32 : Word) = BitVec.ofNat 32 (twoSegments []).storeSize ∧
        (twoSegments []).fitsCapacity ((twoSegments []).used + 0) ∧ (twoSegments []).Inv) ∧
      ((twoIds).queue = [] ∧ twoIds.storeSize = twoIds.launch.maxSegmentIds) ∧
      (oneWord.storeSize ≠ oneWord.launch.maxSegmentIds ∧
        ¬ oneWord.fitsCapacity (oneWord.used + (oneWord.reg 0).toNat)) :=
  ⟨⟨rfl, fits_default rfl _, inv_oneReleased (by simp)⟩,
    ⟨rfl, by decide, by decide, fits_default rfl _, inv_twoSegments (by simp)⟩, ⟨rfl, rfl⟩, by decide,
    fun h => absurd (h 1 rfl) (by decide)⟩

theorem witness_UnmapSegmentResult :
    let s := regs123 (twoSegments []) 0 1 0
    let t := regs123 (oneReleased []) 0 1 2
    (s.reg 2 ≠ 0#32 ∧ s.active (s.reg 2) = true ∧ (s.reg 2).toNat < s.storeSize) ∧ s.reg 3 = 0#32 ∧
      (t.reg 2 ≠ 0#32 ∧ t.released (t.reg 2) = true) ∧
      (t.reg 3 ≠ 0#32 ∧ t.storeSize ≤ (t.reg 3).toNat) := by decide

theorem witness_ReleasedIdentifierIsFatalToUse :
    (regs123 (oneReleased []) 1 1 1).Inv ∧ (regs123 (oneReleased []) 1 1 1).released 1#32 = true ∧
      (regs123 (oneReleased []) 1 1 1).reg 2 = 1#32 :=
  ⟨inv_regs123 (inv_oneReleased (by simp)) _ _ _, by decide, by decide⟩

theorem witness_IdentifiersAreReusedInFifoOrder :
    (oneReleased []).launch.storeCapacityWords = none ∧
      [5#32, 6#32].length = (oneReleased []).queue.length + [3#32].length ∧
      (oneReleased []).storeSize ≠ (oneReleased []).launch.maxSegmentIds := by decide

/-- The four cases: nothing, a reuse, a fresh identifier, a release. -/
theorem witness_QueueDiscipline :
    (∃ t, exec .halt (oneReleased []) = .next t) ∧ (∃ t, exec (.mapSegment 2 3) (oneReleased []) = .next t) ∧
      (∃ t, exec (.mapSegment 2 3) (twoSegments []) = .next t) ∧
      ∃ t, exec (.unmapSegment 2) (regs123 (twoSegments []) 0 1 0) = .next t :=
  ⟨⟨_, rfl⟩, ⟨_, rfl⟩, ⟨_, rfl⟩, ⟨_, rfl⟩⟩

theorem witness_ReissuedIdentifierNamesTheNewSegment :
    let s := regs123 (twoSegments []) 0 1 2
    s.status = .running ∧ s.queue = [] ∧ s.launch.storeCapacityWords = none ∧ s.reg 2 ≠ 0#32 ∧
      s.active (s.reg 2) = true ∧ (s.reg 2).toNat < s.storeSize := by decide

theorem witness_SegmentsNeverAlias :
    (∃ t, (twoSegments [0]).memWrite 1#32 1#32 7#32 = .ok t) ∧
      ∃ t, (twoSegments [0]).replaceSeg0 1#32 = .ok t ∧ (∃ u, t.memWrite 1#32 0#32 7#32 = .ok u) ∧
        ∃ u, t.memWrite 0#32 0#32 7#32 = .ok u :=
  ⟨⟨_, rfl⟩, ⟨_, rfl, ⟨_, rfl⟩, ⟨_, rfl⟩⟩⟩

theorem witness_SegmentLengthIsFixedAtCreation :
    (regs123 (twoSegments []) 1 1 0).Inv ∧
      ∃ t, exec (.segmentStore 1 2 3) (regs123 (twoSegments []) 1 1 0) = .next t ∧
        (regs123 (twoSegments []) 1 1 0).active 1#32 = true ∧ t.active 1#32 = true :=
  ⟨inv_regs123 (inv_twoSegments (by simp)) _ _ _, _, rfl, by decide, by decide⟩

theorem witness_HaltResult : (0x7FFFFFFF#32).toNat / 2 ^ 28 = 7 := by decide

/-- A jump exactly to the end of segment 0. -/
theorem witness_LoadProgramResult_target :
    ∃ t, exec (.loadProgram 1 2) (regs123 (twoSegments [0]) 0 1 0) = .next t ∧ t.status = .running ∧
      t.segLen 0#32 ≤ ((regs123 (twoSegments [0]) 0 1 0).reg 2).toNat :=
  ⟨_, rfl, rfl, by decide⟩

/-- No copy; a copy; a released source; a copy beyond the capacity. -/
theorem witness_LoadProgramResult :
    let s := regs123 (twoSegments [0]) 0 1 0
    let t := regs123 (oneReleased [0]) 0 1 0
    let u := { s with launch := { Config.Launch.default with storeCapacityWords := some 3 } }
    s.reg 1 = 0#32 ∧
      (s.reg 2 ≠ 0#32 ∧ s.active (s.reg 2) = true ∧
        s.fitsCapacity (s.used - s.segLen 0#32 + s.segLen (s.reg 2))) ∧
      (t.reg 2 ≠ 0#32 ∧ t.active (t.reg 2) = false) ∧
      (u.reg 2 ≠ 0#32 ∧ u.active (u.reg 2) = true ∧
        ¬ u.fitsCapacity (u.used - u.segLen 0#32 + u.segLen (u.reg 2))) :=
  ⟨by decide, ⟨by decide, by decide, fits_default rfl _⟩, by decide, by decide, by decide,
    fun h => absurd (h 3 rfl) (by decide)⟩

theorem witness_UnknownOpcodeResult :
    (0xE0000000#32).toNat / 2 ^ 28 = 14 ∧ (0xFFFFFFFF#32).toNat / 2 ^ 28 = 15 ∧
      State.reset.launch.unknownOpcodePolicy = .fail ∧
      { State.reset with launch := { Config.Launch.default with
        unknownOpcodePolicy := .halt } }.launch.unknownOpcodePolicy = .halt := by decide

/-- SegmentStore(r0, r1, r2) at offset 0 with x0 = 0 and x1 = 1: the offset stored to is the next pc. -/
theorem witness_StoreIntoSegment0IsFetchedNext :
    let s := regs123 (twoSegments [0x2000000A, 0]) 1 0x70000000 0
    s.status = .running ∧ s.memRead 0#32 s.pc = .ok 0x2000000A#32 ∧
      decode 0x2000000A#32 = .segmentStore 0 1 2 ∧ s.reg 0 = 0#32 ∧ s.reg 1 = s.pc + 1 ∧
      (s.pc + 1).toNat < s.segLen 0#32 := by decide

/-- The last word of the source, and the first offset beyond it. -/
theorem witness_LoadProgramRunsTheNewSegment0 :
    let s := regs123 (twoSegments [0xC000000A]) 1 1 2
    s.status = .running ∧ s.memRead 0#32 s.pc = .ok 0xC000000A#32 ∧
      decode 0xC000000A#32 = .loadProgram 1 2 ∧ s.reg 1 ≠ 0#32 ∧ s.active (s.reg 1) = true ∧
      s.launch.storeCapacityWords = none ∧ s.memRead (s.reg 1) (s.reg 2) = .ok 20#32 ∧
      s.segLen (s.reg 1) ≤ (s.reg 3).toNat := by decide

theorem witness_OutputResult :
    ((plain 255 256 0).reg 1).toNat ≤ 255 ∧ 255 < ((plain 255 256 0).reg 2).toNat := by decide

theorem witness_InputResult :
    ((plain 0 0 0).withInput { given := [.byte 0xFF], eofForever := true }).nextAnswer = .byte 0xFF ∧
      ((plain 0 0 0).withInput { given := [], eofForever := true }).nextAnswer = .eof := by decide

theorem witness_ResetState :
    loadImage Config.Launch.default.trailingBytesPolicy [0x70, 0x00, 0x00, 0x00] =
      .ok (Segment.ofWords [0x70000000]) := by decide

/-- A whole image, a truncated one, a refused one and one that is too long. -/
theorem witness_ImageLoadResult :
    (([0x70, 0x00, 0x00, 0x00] : List Byte).length % 4 = 0 ∧
        ([0x70, 0x00, 0x00, 0x00] : List Byte).length / 4 ≤ 2 ^ 32 - 1 ∧
        ([0x70, 0x00, 0x00, 0x00] : List Byte)[4 * (0#32).toNat + 3]? = some 0x00) ∧
      { Config.Launch.default with trailingBytesPolicy := .truncate }.trailingBytesPolicy = .truncate ∧
      (([0x70] : List Byte).length % 4 ≠ 0 ∧ Config.Launch.default.trailingBytesPolicy = .fail) ∧
      2 ^ 32 - 1 < (List.replicate (2 ^ 34) (0x00 : Byte)).length / 4 :=
  ⟨by decide, rfl, by decide, by rw [List.length_replicate]; norm_num⟩

theorem witness_ExitStatusIsZeroExactlyOnHalt :
    { State.reset with status := .halted }.exitStatus = some 0 ∧ State.reset.exitStatus = none := by
  decide

theorem witness_InvariantAtBoot : Config.Launch.default.wf := by decide

theorem witness_StepKeepsTheInvariant :
    (oneReleased [0x80000013]).Inv ∧ (oneReleased [0x80000013]).withinCapacity ∧
      ∃ t, step (oneReleased [0x80000013]) = .next t :=
  ⟨inv_oneReleased (by simp), rfl, _, rfl⟩

theorem witness_InvariantOfEveryReachableState :
    Config.Launch.default.wf ∧
      ∃ t, step (boot Config.Launch.default [0x70, 0, 0, 0]) = .next t ∧
        Reachable Config.Launch.default [0x70, 0, 0, 0] t :=
  ⟨by decide, _, rfl, .next .created rfl⟩

theorem witness_StepKeepsStorageWithinCapacity :
    (twoSegments [0x80000013]).Inv ∧
      (twoSegments [0x80000013]).withinCapacity ∧ ∃ t, step (twoSegments [0x80000013]) = .next t :=
  ⟨inv_twoSegments (by simp), rfl, _, rfl⟩

theorem witness_EqualMemoriesAreEqualData :
    Memory.wf (twoSegments [1, 0, 2]).seg ∧ SameMemory (twoSegments [1, 0, 2]) (twoSegments [1, 0, 2]) :=
  ⟨by decide, SameMemory.of_seg rfl⟩

end Sys2Proof.Tests
end

-- The input stream (00_scope.md R6).
namespace Sys2Proof.Machine

/-- A position inside the given answers reads the given answer, whatever follows them. -/
theorem inputAt_of_lt {input : Config.InputStream} {n : Nat} (h : n < input.given.length) :
    inputAt input n = input.given[n] := by
  simp [inputAt, List.getElem?_eq_getElem h]

/-- From the end of the given answers on, a stream that ends for ever reads `EOF`. -/
theorem inputAt_of_length_le {input : Config.InputStream} {n : Nat} (hEof : input.eofForever = true)
    (h : input.given.length ≤ n) : inputAt input n = .eof := by
  simp [inputAt, List.getElem?_eq_none h, hEof]

/-- Settles O39, by whether the position lies among the listed bytes or after them. -/
theorem fixtureInputIsBytesThenEof : Obligations.FixtureInputIsBytesThenEof := by
  intro bytes n
  rcases Nat.lt_or_ge n bytes.length with hIn | hAfter
  · rw [List.getElem?_eq_getElem hIn, inputAt_of_lt (by simpa using hIn)]
    simp
  · rw [List.getElem?_eq_none hAfter, inputAt_of_length_le rfl (by simpa using hAfter)]

end Sys2Proof.Machine

/-! ## The state: what each instruction may do to the registers and to the storage (10_state.md) -/

namespace Sys2Proof.Machine

/-! ### Terminal status (10_state.md R28) -/

theorem step_of_halted {s : State} (h : s.status = .halted) : step s = .fault .engineHalted := by
  simp [step, h]

theorem step_of_failed {s : State} {reason : FailReason} (h : s.status = .failed reason) :
    step s = .fault (.engineFailed reason) := by
  simp [step, h]

/-- Settles O9, by the two terminal statuses. -/
theorem terminalStatusHasNoStep : Obligations.TerminalStatusHasNoStep :=
  ⟨rfl, fun _ h => step_of_halted h, fun _ _ h => step_of_failed h⟩

/-! ### What an instruction can do to the registers and the storage (10_state.md R22, R29 to R34) -/

/-- The segment table, the allocator's bookkeeping and the launch parameters, all that the invariant
speaks of, are the same data. -/
structure SameStorage (s t : State) : Prop where
  seg : t.seg = s.seg
  storeSize : t.storeSize = s.storeSize
  queue : t.queue = s.queue
  launch : t.launch = s.launch

namespace SameStorage

theorem setReg (s : State) (i : Reg) (v : Word) : SameStorage s (s.setReg i v) := ⟨rfl, rfl, rfl, rfl⟩
theorem setPc (s : State) (target : Word) : SameStorage s (s.setPc target) := ⟨rfl, rfl, rfl, rfl⟩
theorem advancePc (s : State) : SameStorage s s.advancePc := ⟨rfl, rfl, rfl, rfl⟩
theorem setStatus (s : State) (status : Status) : SameStorage s { s with status := status } :=
  ⟨rfl, rfl, rfl, rfl⟩

end SameStorage

/-- The instruction left the storage alone, and of the registers it wrote at most its destination. -/
structure WritesNoStorage (i : Instr) (s t : State) : Prop extends SameStorage s t where
  regs : ∀ r : Reg, destination? i ≠ some r → t.reg r = s.reg r

namespace WritesNoStorage

theorem of_sameRegs {i : Instr} {s t : State} (hStorage : SameStorage s t) (hRegs : SameRegs s t) :
    WritesNoStorage i s t := ⟨hStorage, fun r _ => hRegs r⟩

theorem setStatus {i : Instr} (s : State) (status : Status) :
    WritesNoStorage i s { s with status := status } := of_sameRegs (.setStatus s status) fun _ => rfl

theorem setReg {i : Instr} {d : Reg} (h : destination? i = some d) (s : State) (v : Word) :
    WritesNoStorage i s (s.setReg d v) :=
  ⟨.setReg s d v, fun _ hr => s.reg_setReg_ne (fun e => hr (h.trans (congrArg some e.symm))) v⟩

end WritesNoStorage

/-- All that an instruction can do to the registers and the storage: a register write, or the one
storage operation its row names, done in full.  A failing instruction does neither
(40_fetch_execute.md R107). -/
inductive ExecEffect (s : State) : Instr → State → Prop where
  | noStorage {i : Instr} {t : State} : WritesNoStorage i s t → ExecEffect s i t
  | store {a b c : Reg} {t : State} :
      s.memWrite (s.reg a) (s.reg b) (s.reg c) = .ok t → ExecEffect s (.segmentStore a b c) t
  | map {b c : Reg} {id : Word} {u : State} :
      s.alloc (s.reg c) = .ok (id, u) → ExecEffect s (.mapSegment b c) (u.setReg b id)
  | unmap {c : Reg} {t : State} :
      unmap s (s.reg c) = .ok t → ExecEffect s (.unmapSegment c) t
  | copy {b c : Reg} {u : State} :
      s.reg b ≠ 0#32 → s.replaceSeg0 (s.reg b) = .ok u →
        ExecEffect s (.loadProgram b c) (u.setPc (s.reg c))

/-- Every next state of an instruction is one of `ExecEffect`'s cases. -/
theorem exec_effect {i : Instr} {s t : State} (h : exec i s = .next t) : ExecEffect s i t := by
  cases i with
  | conditionalMove a b c =>
    rcases (execConditionalMove_next_iff _ _ _ _ _).1 h with ⟨-, rfl⟩ | ⟨-, rfl⟩
    · exact .noStorage (.setReg rfl _ _)
    · exact .noStorage (.of_sameRegs ⟨rfl, rfl, rfl, rfl⟩ fun _ => rfl)
  | segmentLoad a b c =>
    rcases (execSegmentLoad_next_iff _ _ _ _ _).1 h with ⟨v, -, rfl⟩ | ⟨reason, -, rfl⟩
    · exact .noStorage (.setReg rfl _ _)
    · exact .noStorage (.setStatus _ _)
  | segmentStore a b c =>
    rcases (execSegmentStore_next_iff _ _ _ _ _).1 h with hOk | ⟨reason, -, rfl⟩
    · exact .store hOk
    · exact .noStorage (.setStatus _ _)
  | add a b c =>
    obtain rfl := (execAdd_next_iff _ _ _ _ _).1 h
    exact .noStorage (.setReg rfl _ _)
  | multiply a b c =>
    obtain rfl := (execMultiply_next_iff _ _ _ _ _).1 h
    exact .noStorage (.setReg rfl _ _)
  | divide a b c =>
    rcases (execDivide_next_iff _ _ _ _ _).1 h with ⟨-, rfl⟩ | ⟨-, rfl⟩
    · exact .noStorage (.setReg rfl _ _)
    · exact .noStorage (.setStatus _ _)
  | nand a b c =>
    obtain rfl := (execNand_next_iff _ _ _ _ _).1 h
    exact .noStorage (.setReg rfl _ _)
  | halt =>
    obtain rfl := (execHalt_next_iff _ _).1 h
    exact .noStorage (.setStatus _ _)
  | mapSegment b c =>
    rcases (execMapSegment_next_iff _ _ _ _).1 h with ⟨id, u, hOk, rfl⟩ | ⟨reason, -, rfl⟩
    · exact .map hOk
    · exact .noStorage (.setStatus _ _)
  | unmapSegment c =>
    rcases (execUnmapSegment_next_iff _ _ _).1 h with hOk | ⟨reason, -, rfl⟩
    · exact .unmap hOk
    · exact .noStorage (.setStatus _ _)
  | output c =>
    rcases (execOutput_next_iff _ _ _).1 h with ⟨-, rfl⟩ | ⟨-, rfl⟩
    · exact .noStorage (.of_sameRegs ⟨rfl, rfl, rfl, rfl⟩ fun _ => rfl)
    · exact .noStorage (.setStatus _ _)
  | input c =>
    obtain rfl := (execInput_next_iff _ _ _).1 h
    have hWrite : WritesNoStorage (.input c) s.advanceInput _ := .setReg rfl _ (answerWord s.nextAnswer)
    exact .noStorage ⟨⟨rfl, rfl, rfl, rfl⟩, hWrite.regs⟩
  | loadProgram b c =>
    rcases (execLoadProgram_next_iff _ _ _ _).1 h with ⟨u, hOk, rfl⟩ | ⟨reason, -, rfl⟩
    · rcases (State.loadSegment0_ok_iff _ _ _).1 hOk with ⟨-, rfl⟩ | ⟨hNonzero, hCopy⟩
      · exact .noStorage (.of_sameRegs (.setPc _ _) fun _ => rfl)
      · exact .copy hNonzero hCopy
    · exact .noStorage (.setStatus _ _)
  | loadImmediate a value =>
    obtain rfl := (execLoadImmediate_next_iff _ _ _ _).1 h
    exact .noStorage (.setReg rfl _ _)
  | unknown14 =>
    rcases (execUnknown14_next_iff _ _).1 h with ⟨-, rfl⟩ | ⟨-, rfl⟩ <;>
      exact .noStorage (.setStatus _ _)
  | unknown15 =>
    rcases (execUnknown15_next_iff _ _).1 h with ⟨-, rfl⟩ | ⟨-, rfl⟩ <;>
      exact .noStorage (.setStatus _ _)

/-- A step fails its range check and leaves the storage alone, or it has the effect of an instruction on
the state the fetch left. -/
theorem step_effect_cases {s t : State} (h : step s = .next t) :
    SameStorage s t ∨ ∃ i, ExecEffect s.advancePc i t := by
  obtain ⟨-, ⟨-, rfl⟩ | ⟨w, -, hExec⟩⟩ := step_cases h
  · exact .inl (.setStatus s _)
  · exact .inr ⟨decode w, exec_effect hExec⟩

/-! ### Registers (10_state.md R22) -/

namespace State

theorem memWrite_regs {s t : State} {id offset v : Word} (h : s.memWrite id offset v = .ok t) :
    t.regs = s.regs := by
  obtain ⟨g, -, -, rfl⟩ := (memWrite_ok_iff _ _ _ _ _).1 h
  rfl

theorem unmap_regs {s t : State} {id : Word} (h : unmap s id = .ok t) : t.regs = s.regs := by
  obtain ⟨-, -, -, rfl⟩ := (unmap_ok_iff _ _ _).1 h
  rfl

theorem replaceSeg0_regs {s t : State} {id : Word} (h : s.replaceSeg0 id = .ok t) :
    t.regs = s.regs := by
  obtain ⟨g, -, -, rfl⟩ := (replaceSeg0_ok_iff _ _ _).1 h
  rfl

end State

/-- The register frame of every instruction: no storage operation writes a register, and MapSegment
then writes its destination. -/
theorem ExecEffect.reg_of_not_destination {i : Instr} {s t : State} (h : ExecEffect s i t) {r : Reg}
    (hr : destination? i ≠ some r) : t.reg r = s.reg r := by
  cases h with
  | noStorage hWrites => exact hWrites.regs r hr
  | store hOk => exact State.reg_congr (State.memWrite_regs hOk) r
  | @map b c id u hOk =>
    obtain ⟨hRegs, -⟩ := State.alloc_rest hOk
    have hNe : r ≠ b := fun e => hr (e ▸ rfl)
    exact (u.reg_setReg_ne hNe id).trans (State.reg_congr hRegs r)
  | unmap hOk => exact State.reg_congr (State.unmap_regs hOk) r
  | copy _ hOk => exact State.reg_congr (State.replaceSeg0_regs hOk) r

/-- Settles O12: the frame of every instruction, and a ConditionalMove whose condition is 0 leaves the
state as it is. -/
theorem onlyTheDestinationRegisterIsWritten : Obligations.OnlyTheDestinationRegisterIsWritten := by
  intro i s t h
  refine ⟨fun r hr => (exec_effect h).reg_of_not_destination hr, ?_⟩
  rintro a b c rfl hZero
  rcases (execConditionalMove_next_iff _ _ _ _ _).1 h with ⟨hNonzero, -⟩ | ⟨-, rfl⟩
  · exact absurd hZero hNonzero
  · rfl

/-! ### The recycle queue and `store_size` (10_state.md R29, R34) -/

namespace State

/-- Where an allocation takes its identifier from: the head of the queue, else `store_size`
(20_memory.md R60). -/
theorem alloc_source {s t : State} {n id : Word} (h : s.alloc n = .ok (id, t)) :
    (s.queue = id :: t.queue ∧ t.storeSize = s.storeSize) ∨
      (s.queue = [] ∧ t.queue = [] ∧ t.storeSize = s.storeSize + 1 ∧
        id = BitVec.ofNat 32 s.storeSize ∧ s.storeSize ≠ s.launch.maxSegmentIds) := by
  obtain ⟨hIds, -, rfl, rfl⟩ := (alloc_ok_iff _ _ _ _).1 h
  cases hq : s.queue with
  | cons head rest => exact .inl (by simp [takeId_of_queue hq])
  | nil =>
    have hBelow : s.storeSize ≠ s.launch.maxSegmentIds := fun e => by
      simp [(idsExhausted_eq_true_iff s).2 ⟨hq, e⟩] at hIds
    exact .inr (by simp [takeId_of_empty hq, hq, hBelow])

/-- A store leaves the allocator's bookkeeping alone. -/
theorem memWrite_rest {s t : State} {id offset v : Word} (h : s.memWrite id offset v = .ok t) :
    t.storeSize = s.storeSize ∧ t.queue = s.queue ∧ t.launch = s.launch := by
  obtain ⟨g, -, -, rfl⟩ := (memWrite_ok_iff _ _ _ _ _).1 h
  exact ⟨rfl, rfl, rfl⟩

/-- A replacement of segment 0 leaves the allocator's bookkeeping alone. -/
theorem replaceSeg0_rest {s t : State} {id : Word} (h : s.replaceSeg0 id = .ok t) :
    t.storeSize = s.storeSize ∧ t.queue = s.queue ∧ t.launch = s.launch := by
  obtain ⟨g, -, -, rfl⟩ := (replaceSeg0_ok_iff _ _ _).1 h
  exact ⟨rfl, rfl, rfl⟩

end State

/-- Settles O28, by the cases of what an instruction does to the storage. -/
theorem queueDiscipline : Obligations.QueueDiscipline := by
  intro i s t h
  cases exec_effect h with
  | noStorage hWrites => exact .inl ⟨hWrites.queue, hWrites.storeSize⟩
  | store hOk =>
    obtain ⟨hSize, hQueue, -⟩ := State.memWrite_rest hOk
    exact .inl ⟨hQueue, hSize⟩
  | @map b c id u hOk =>
    rcases State.alloc_source hOk with ⟨hQueue, hSize⟩ | ⟨hEmpty, hQueue, hSize, hId, -⟩
    · exact .inr (.inl ⟨b, c, id, rfl, hQueue, hSize, State.reg_setReg_self _ _ _⟩)
    · exact .inr (.inr (.inl ⟨b, c, rfl, hEmpty, hQueue, hSize, by rw [State.reg_setReg_self, hId]⟩))
  | @unmap c _ hOk =>
    obtain ⟨-, -, -, rfl⟩ := (State.unmap_ok_iff _ _ _).1 hOk
    exact .inr (.inr (.inr ⟨c, rfl, rfl, rfl⟩))
  | copy _ hOk =>
    obtain ⟨hSize, hQueue, -⟩ := State.replaceSeg0_rest hOk
    exact .inl ⟨hQueue, hSize⟩

/-! ### The active identifiers (10_state.md R30) -/

namespace State

theorem active_alloc_iff {s t : State} {n id : Word} (h : s.alloc n = .ok (id, t)) (j : Word) :
    t.active j = true ↔ j = id ∨ s.active j = true := by
  unfold active
  rw [segment?_alloc h]
  by_cases hj : j = id <;> simp [hj]

theorem active_release_iff (s : State) (id j : Word) :
    (s.release id).active j = true ↔ j ≠ id ∧ s.active j = true := by
  unfold active
  rw [segment?_release]
  by_cases hj : j = id <;> simp [hj]

theorem active_replaceSeg0_iff {s t : State} {id : Word} (h : s.replaceSeg0 id = .ok t) (j : Word) :
    t.active j = true ↔ j = 0#32 ∨ s.active j = true := by
  obtain ⟨g, -, -, rfl⟩ := (replaceSeg0_ok_iff _ _ _).1 h
  unfold active
  rw [segment?_putSegment]
  by_cases hj : j = 0#32 <;> simp [hj]

end State

/-! ### The invariant (10_state.md R29, R30, R31) -/

namespace State.Inv

/-- The invariant speaks of the segment table through its canonical form and the active identifiers
alone. -/
theorem of_sameActive {s t : State} (hs : s.Inv) (hMemory : Memory.wf t.seg)
    (hActive : ∀ id : Word, t.active id = s.active id)
    (hRest : t.storeSize = s.storeSize ∧ t.queue = s.queue ∧ t.launch = s.launch) : t.Inv := by
  obtain ⟨hSize, hQueue, hLaunch⟩ := hRest
  constructor
  case memory => exact hMemory
  case segment0 => exact (hActive _).trans hs.segment0
  case issued => simpa [hActive, hSize] using hs.issued
  case queueNodup => simpa [hQueue] using hs.queueNodup
  case queueReleased => simpa [hActive, hSize, hQueue] using hs.queueReleased
  case dense => simpa [hActive, hSize, hQueue] using hs.dense
  case storeSize => simpa [hSize, hLaunch] using hs.storeSize
  case launch => simpa [hLaunch] using hs.launch

theorem of_sameStorage {s t : State} (hs : s.Inv) (h : SameStorage s t) : t.Inv :=
  hs.of_sameActive (by rw [h.seg]; exact hs.memory)
    (fun id => active_congr (segment?_congr h.seg id)) ⟨h.storeSize, h.queue, h.launch⟩

theorem memWrite {s t : State} {id offset v : Word} (hs : s.Inv) (h : s.memWrite id offset v = .ok t) :
    t.Inv :=
  hs.of_sameActive (wf_memWrite hs.memory h) (active_memWrite h) (memWrite_rest h)

/-- Segment 0 was active before it was replaced, so no identifier comes or goes. -/
theorem replaceSeg0 {s t : State} {id : Word} (hs : s.Inv) (h : s.replaceSeg0 id = .ok t) : t.Inv := by
  refine hs.of_sameActive (wf_replaceSeg0 hs.memory h) (fun j => ?_) (replaceSeg0_rest h)
  rw [Bool.eq_iff_iff, active_replaceSeg0_iff h]
  exact or_iff_right_of_imp fun hj => hj ▸ hs.segment0

/-- The fresh identifier is `store_size` itself: while it is below `MAX_SEGMENT_IDS` it is a Word. -/
theorem toNat_storeSize {s : State} (hs : s.Inv) (h : s.storeSize ≠ s.launch.maxSegmentIds) :
    (BitVec.ofNat 32 s.storeSize).toNat = s.storeSize := by
  obtain ⟨-, hMax⟩ := hs.storeSize
  obtain ⟨-, hLimit⟩ := hs.launch
  have hBelow : s.storeSize < wordModulus := (lt_of_le_of_ne hMax h).trans_le hLimit
  rw [BitVec.toNat_ofNat]
  exact Nat.mod_eq_of_lt hBelow

/-- An allocation never takes an identifier that is in use. -/
theorem inactive_of_alloc {s t : State} {n id : Word} (hs : s.Inv) (h : s.alloc n = .ok (id, t)) :
    s.active id = false := by
  rcases alloc_source h with ⟨hQueue, -⟩ | ⟨-, -, -, rfl, hBelow⟩
  · exact (hs.queueReleased id (by simp [hQueue])).2
  · refine Bool.eq_false_iff.2 fun hActive => ?_
    have hIssued := hs.issued _ hActive
    rw [hs.toNat_storeSize hBelow] at hIssued
    exact lt_irrefl _ hIssued

/-- A reused identifier moves from the head of the queue to the active ones. -/
theorem alloc_of_reuse {s t : State} {n id : Word} (hs : s.Inv) (h : s.alloc n = .ok (id, t))
    (hQueue : s.queue = id :: t.queue) (hSize : t.storeSize = s.storeSize) : t.Inv := by
  obtain ⟨-, -, -, -, -, hLaunch⟩ := alloc_rest h
  obtain ⟨hNotIn, hTail⟩ := List.nodup_cons.1 (hQueue ▸ hs.queueNodup)
  have hActive := active_alloc_iff h
  have hReleased := hs.queueReleased
  have hDense := hs.dense
  simp only [hQueue, List.mem_cons] at hReleased hDense
  constructor
  case memory => exact wf_alloc hs.memory h
  case segment0 => exact (hActive 0#32).2 (.inr hs.segment0)
  case issued =>
    intro j hj
    rw [hSize]
    rcases (hActive j).1 hj with rfl | hj
    · exact (hReleased j (.inl rfl)).1
    · exact hs.issued j hj
  case queueNodup => exact hTail
  case queueReleased =>
    intro j hj
    obtain ⟨hIssued, hFalse⟩ := hReleased j (.inr hj)
    have hNe : j ≠ id := fun e => hNotIn (e ▸ hj)
    exact ⟨hSize ▸ hIssued, by rw [← Bool.not_eq_true, hActive]; simp [hNe, hFalse]⟩
  case dense =>
    intro j hj
    rw [hActive]
    have := hDense j (hSize ▸ hj)
    tauto
  case storeSize => rw [hSize, hLaunch]; exact hs.storeSize
  case launch => exact hLaunch ▸ hs.launch

/-- A fresh identifier extends the issued range by itself. -/
theorem alloc_of_fresh {s t : State} {n : Word} (hs : s.Inv)
    (h : s.alloc n = .ok (BitVec.ofNat 32 s.storeSize, t)) (hEmpty : s.queue = []) (hQueue : t.queue = [])
    (hSize : t.storeSize = s.storeSize + 1) (hBelow : s.storeSize ≠ s.launch.maxSegmentIds) :
    t.Inv := by
  obtain ⟨-, -, -, -, -, hLaunch⟩ := alloc_rest h
  have hFresh := hs.toNat_storeSize hBelow
  have hActive := active_alloc_iff h
  constructor
  case memory => exact wf_alloc hs.memory h
  case segment0 => exact (hActive 0#32).2 (.inr hs.segment0)
  case issued =>
    intro j hj
    rw [hSize]
    rcases (hActive j).1 hj with rfl | hj
    · omega
    · exact Nat.lt_succ_of_lt (hs.issued j hj)
  case queueNodup => simp [hQueue]
  case queueReleased => simp [hQueue]
  case dense =>
    intro j hj
    rw [hActive]
    rcases Nat.lt_succ_iff_lt_or_eq.1 (hSize ▸ hj) with hOld | hNew
    · have hOr := hs.dense j hOld
      simp only [hEmpty, List.not_mem_nil, or_false] at hOr
      exact .inl (.inr hOr)
    · exact .inl (.inl (BitVec.eq_of_toNat_eq (hNew.trans hFresh.symm)))
  case storeSize =>
    obtain ⟨-, hMax⟩ := hs.storeSize
    rw [hSize, hLaunch]
    omega
  case launch => exact hLaunch ▸ hs.launch

theorem alloc {s t : State} {n id : Word} (hs : s.Inv) (h : s.alloc n = .ok (id, t)) : t.Inv := by
  rcases alloc_source h with ⟨hQueue, hSize⟩ | ⟨hEmpty, hQueue, hSize, rfl, hBelow⟩
  · exact hs.alloc_of_reuse h hQueue hSize
  · exact hs.alloc_of_fresh h hEmpty hQueue hSize hBelow

/-- An unmapped identifier moves from active to the tail of the queue. -/
theorem unmap {s t : State} {id : Word} (hs : s.Inv) (h : unmap s id = .ok t) : t.Inv := by
  obtain ⟨hNonzero, hNotReleased, hIssued, rfl⟩ := (unmap_ok_iff _ _ _).1 h
  have hNotIn : id ∉ s.queue := fun hIn => by
    have := (released_eq_true_iff s id).2 ⟨hIssued, (hs.queueReleased id hIn).2, hIn⟩
    simp [hNotReleased] at this
  constructor
  case memory => exact wf_release hs.memory id
  case segment0 => exact (active_release_iff _ _ _).2 ⟨hNonzero.symm, hs.segment0⟩
  case issued => exact fun j hj => hs.issued j ((active_release_iff _ _ _).1 hj).2
  case queueNodup => simpa [List.nodup_append] using ⟨hs.queueNodup, fun j hj e => hNotIn (e ▸ hj)⟩
  case queueReleased =>
    intro j hj
    rw [← Bool.not_eq_true, active_release_iff]
    rcases List.mem_append.1 hj with hj | hj
    · obtain ⟨hBelow, hFalse⟩ := hs.queueReleased j hj
      exact ⟨hBelow, by simp [hFalse]⟩
    · obtain rfl := List.mem_singleton.1 hj
      exact ⟨hIssued, by simp⟩
  case dense =>
    intro j hj
    rw [active_release_iff, release_queue, List.mem_append, List.mem_singleton]
    have := hs.dense j hj
    tauto
  case storeSize => exact hs.storeSize
  case launch => exact hs.launch

theorem of_execEffect {i : Instr} {s t : State} (hs : s.Inv) (h : ExecEffect s i t) : t.Inv := by
  cases h with
  | noStorage hWrites => exact hs.of_sameStorage hWrites.toSameStorage
  | store hOk => exact hs.memWrite hOk
  | map hOk => exact (hs.alloc hOk).of_sameStorage (.setReg _ _ _)
  | unmap hOk => exact hs.unmap hOk
  | copy _ hOk => exact (hs.replaceSeg0 hOk).of_sameStorage (.setPc _ _)

/-- The identifiers issued are the active and the queued ones (10_state.md R30). -/
theorem issued_iff {s : State} (hs : s.Inv) (id : Word) :
    id.toNat < s.storeSize ↔ (s.active id = true ∨ id ∈ s.queue) :=
  ⟨hs.dense id, fun h => h.elim (hs.issued id) fun hIn => (hs.queueReleased id hIn).1⟩

theorem not_active_and_queued {s : State} (hs : s.Inv) (id : Word) :
    ¬ (s.active id = true ∧ id ∈ s.queue) := fun ⟨hActive, hIn⟩ => by
  simp [(hs.queueReleased id hIn).2] at hActive

end State.Inv

/-- Settles O46: each storage operation keeps the invariant, and a step does one of them or none. -/
theorem stepKeepsTheInvariant : Obligations.StepKeepsTheInvariant := by
  intro s t hs h
  rcases step_effect_cases h with hSame | ⟨i, hEffect⟩
  · exact hs.of_sameStorage hSame
  · exact (hs.of_sameStorage (.advancePc s)).of_execEffect hEffect

/-! ### The length of a segment (10_state.md R31) -/

namespace State

@[simp] theorem segLen_setReg (s : State) (i : Reg) (v id : Word) :
    (s.setReg i v).segLen id = s.segLen id := rfl

@[simp] theorem segLen_setPc (s : State) (target id : Word) :
    (s.setPc target).segLen id = s.segLen id := rfl

theorem segLen_le_of_wf {s : State} (h : Memory.wf s.seg) (id : Word) : s.segLen id ≤ 2 ^ 32 - 1 := by
  unfold segLen
  cases hg : s.segment? id with
  | none => exact Nat.zero_le _
  | some g => exact (segment_wf h hg).1

theorem segLen_alloc_of_ne {s t : State} {n id j : Word} (h : s.alloc n = .ok (id, t)) (hj : j ≠ id) :
    t.segLen j = s.segLen j :=
  segLen_congr (by rw [segment?_alloc h, if_neg hj])

theorem segLen_release_of_ne (s : State) {id j : Word} (hj : j ≠ id) :
    (s.release id).segLen j = s.segLen j :=
  segLen_congr (by rw [segment?_release, if_neg hj])

theorem segLen_replaceSeg0 {s t : State} {id : Word} (h : s.replaceSeg0 id = .ok t) (j : Word) :
    t.segLen j = if j = 0#32 then s.segLen id else s.segLen j := by
  obtain ⟨g, hg, -, rfl⟩ := (replaceSeg0_ok_iff _ _ _).1 h
  unfold segLen
  rw [segment?_putSegment]
  split_ifs <;> simp [hg]

end State

/-- A segment that lasts keeps its length, except that LoadProgram replaces segment 0. -/
theorem ExecEffect.segLen {i : Instr} {s t : State} (h : ExecEffect s i t) (hs : s.Inv) {id : Word}
    (hBefore : s.active id = true) (hAfter : t.active id = true) :
    t.segLen id = s.segLen id ∨
      id = 0#32 ∧ ∃ b c, i = .loadProgram b c ∧ s.reg b ≠ 0#32 ∧ t.segLen id = s.segLen (s.reg b) := by
  cases h with
  | noStorage hWrites => exact .inl (State.segLen_congr (State.segment?_congr hWrites.seg id))
  | store hOk => exact .inl (State.segLen_memWrite hOk id)
  | map hOk =>
    refine .inl ((State.segLen_setReg _ _ _ _).trans (State.segLen_alloc_of_ne hOk ?_))
    rintro rfl
    simp [hs.inactive_of_alloc hOk] at hBefore
  | unmap hOk =>
    obtain ⟨-, -, -, rfl⟩ := (State.unmap_ok_iff _ _ _).1 hOk
    obtain ⟨hNe, -⟩ := (State.active_release_iff _ _ _).1 hAfter
    exact .inl (State.segLen_release_of_ne s hNe)
  | @copy b c u hNonzero hOk =>
    rw [State.segLen_setPc, State.segLen_replaceSeg0 hOk]
    by_cases hZero : id = 0#32
    · exact .inr ⟨hZero, b, c, rfl, hNonzero, if_pos hZero⟩
    · exact .inl (if_neg hZero)

/-- Settles O31: segment 0 is always active, and the bound is part of the invariant after the
instruction. -/
theorem segmentLengthIsFixedAtCreation : Obligations.SegmentLengthIsFixedAtCreation := by
  intro i s t hs h
  have hEffect := exec_effect h
  have ht : t.Inv := hs.of_execEffect hEffect
  refine ⟨fun id hNonzero hBefore hAfter => ?_, ?_, State.segLen_le_of_wf ht.memory⟩
  · exact (hEffect.segLen hs hBefore hAfter).resolve_right fun ⟨hZero, _⟩ => hNonzero hZero
  · exact (hEffect.segLen hs hs.segment0 ht.segment0).imp_right And.right

/-! ### The storage in use (10_state.md R33) -/

namespace State

theorem exceedsCapacity_eq_false_iff (s : State) (n : Nat) :
    s.exceedsCapacity n = false ↔ s.fitsCapacity n := by
  unfold exceedsCapacity fitsCapacity
  cases s.launch.storeCapacityWords <;> simp

theorem withinCapacity_iff (s : State) : s.withinCapacity ↔ s.fitsCapacity s.used :=
  exceedsCapacity_eq_false_iff s s.used

theorem fitsCapacity_mono {s t : State} (hLaunch : t.launch = s.launch) {m n : Nat} (h : m ≤ n)
    (hn : s.fitsCapacity n) : t.fitsCapacity m :=
  fun capacity hCapacity => h.trans (hn capacity (hLaunch ▸ hCapacity))

@[simp] theorem used_setReg (s : State) (i : Reg) (v : Word) : (s.setReg i v).used = s.used := rfl

theorem used_congr {s t : State} (h : t.seg = s.seg) : t.used = s.used := by
  simp [used, h]

theorem used_memWrite {s t : State} {id offset v : Word} (hs : Memory.wf s.seg)
    (h : s.memWrite id offset v = .ok t) : t.used = s.used := by
  obtain ⟨g, hg, -, rfl⟩ := (memWrite_ok_iff _ _ _ _ _).1 h
  have hLen : s.segLen id = g.len := by simp [segLen, hg]
  have hSum := used_putSegment hs id (g.write offset.toNat v)
  rw [hLen, Segment.write_len] at hSum
  omega

theorem used_alloc_le {s t : State} {n id : Word} (hs : Memory.wf s.seg)
    (h : s.alloc n = .ok (id, t)) : t.used ≤ s.used + n.toNat := by
  obtain ⟨-, -, -, rfl⟩ := (alloc_ok_iff _ _ _ _).1 h
  obtain ⟨-, -, -, hSeg, -⟩ := takeId_rest s
  have hSum := used_putSegment (s := s.takeId.2) (hSeg ▸ hs) id (Segment.zeros n.toNat)
  rw [used_congr hSeg, Segment.zeros_len] at hSum
  omega

theorem used_replaceSeg0_le {s : State} (hs : Memory.wf s.seg) (g : Segment) :
    (s.putSegment 0#32 g).used ≤ s.used - s.segLen 0#32 + g.len := by
  have hSum := used_putSegment hs 0#32 g
  omega

theorem withinCapacity_of_sameStorage {s t : State} (h : SameStorage s t) (hs : s.withinCapacity) :
    t.withinCapacity := by
  rw [withinCapacity_iff] at hs ⊢
  exact fitsCapacity_mono h.launch (used_congr h.seg).le hs

/-- The allocation and the replacement checked the capacity; no other effect raises the storage in use. -/
theorem withinCapacity_of_execEffect {i : Instr} {s t : State} (h : ExecEffect s i t)
    (hs : Memory.wf s.seg) (hWithin : s.withinCapacity) : t.withinCapacity := by
  have hFitsBefore := (withinCapacity_iff s).1 hWithin
  rw [withinCapacity_iff]
  cases h with
  | noStorage hWrites => exact fitsCapacity_mono hWrites.launch (used_congr hWrites.seg).le hFitsBefore
  | store hOk =>
    obtain ⟨-, -, hLaunch⟩ := memWrite_rest hOk
    exact fitsCapacity_mono hLaunch (used_memWrite hs hOk).le hFitsBefore
  | map hOk =>
    obtain ⟨-, hFits, -⟩ := (alloc_ok_iff _ _ _ _).1 hOk
    obtain ⟨-, -, -, -, -, hLaunch⟩ := alloc_rest hOk
    exact fitsCapacity_mono hLaunch ((used_setReg _ _ _).trans_le (used_alloc_le hs hOk))
      ((exceedsCapacity_eq_false_iff _ _).1 hFits)
  | unmap hOk =>
    obtain ⟨-, -, -, rfl⟩ := (unmap_ok_iff _ _ _).1 hOk
    exact fitsCapacity_mono rfl (Nat.le.intro (used_release hs _)) hFitsBefore
  | copy _ hOk =>
    obtain ⟨g, -, hFits, rfl⟩ := (replaceSeg0_ok_iff _ _ _).1 hOk
    exact fitsCapacity_mono rfl (used_replaceSeg0_le hs g) ((exceedsCapacity_eq_false_iff _ _).1 hFits)

end State

/-- Settles O48: the fetch leaves the storage alone, and each storage effect keeps it within the
capacity. -/
theorem stepKeepsStorageWithinCapacity : Obligations.StepKeepsStorageWithinCapacity := by
  intro s t hs hWithin h
  rcases step_effect_cases h with hSame | ⟨i, hEffect⟩
  · exact State.withinCapacity_of_sameStorage hSame hWithin
  · exact State.withinCapacity_of_execEffect hEffect hs.memory
      (State.withinCapacity_of_sameStorage (.advancePc s) hWithin)

/-! ### The machine as created, and every state its run reaches (10_state.md R30, R32) -/

theorem length_wordsOfBytes : ∀ image : List Byte, (wordsOfBytes image).length = image.length / 4
  | _ :: _ :: _ :: _ :: rest => by
    simp only [wordsOfBytes, List.length_cons, length_wordsOfBytes rest]
    omega
  | [] | [_] | [_, _] | [_, _, _] => by simp [wordsOfBytes]

/-- The image load checks the length it gives segment 0 (70_reset_and_hazards.md R251). -/
theorem loadImage_wf {policy : Config.TrailingBytesPolicy} {image : List Byte} {segment0 : Segment}
    (h : loadImage policy image = .ok segment0) : segment0.wf := by
  unfold loadImage at h
  split_ifs at h with hTrailing hLong
  obtain rfl := Except.ok.inj h
  exact Segment.wf_ofWords (by rw [length_wordsOfBytes]; exact Nat.not_lt.1 hLong)

namespace State

theorem active_initial_iff (launch : Config.Launch) (segment0 : Segment) (id : Word) :
    (initial launch segment0).active id = true ↔ id = 0#32 := by
  have hKey : 0 = id.toNat ↔ id = 0#32 := by rw [eq_comm, BitVec.toNat_eq]; rfl
  simp [active, segment?, initial, Table.lookup_cons, ← hKey]

theorem inv_initial {launch : Config.Launch} {segment0 : Segment} (hLaunch : launch.wf)
    (hSegment : segment0.wf) : (initial launch segment0).Inv where
  memory := ⟨List.pairwise_singleton _ _, by simpa [initial] using hSegment⟩
  segment0 := (active_initial_iff _ _ _).2 rfl
  issued id h := by
    obtain rfl := (active_initial_iff _ _ _).1 h
    exact Nat.one_pos
  queueNodup := List.nodup_nil
  queueReleased _ h := absurd h List.not_mem_nil
  dense id h := .inl ((active_initial_iff _ _ _).2 (BitVec.eq_of_toNat_eq (Nat.lt_one_iff.1 h)))
  storeSize := ⟨le_refl 1, hLaunch.1⟩
  launch := hLaunch

end State

/-- Settles O44: with no image and no capacity limit. -/
theorem invariantAtReset : Obligations.InvariantAtReset :=
  ⟨State.inv_initial (by decide) Segment.wf_empty, State.exceedsCapacity_unbounded rfl _⟩

/-- Settles O45, by whether the image loads; the status a failed load leaves is no part of the
invariant. -/
theorem invariantAtBoot : Obligations.InvariantAtBoot := by
  intro launch image hLaunch
  unfold boot
  split
  next segment0 hLoad => exact State.inv_initial hLaunch (loadImage_wf hLoad)
  next => exact (State.inv_initial hLaunch Segment.wf_empty).of_sameStorage (.setStatus _ _)

/-- The invariant of a created machine is carried along every run. -/
theorem Reachable.inv {launch : Config.Launch} {image : List Byte} {t : State} (hLaunch : launch.wf)
    (h : Reachable launch image t) : t.Inv := by
  induction h with
  | created => exact invariantAtBoot launch image hLaunch
  | next _ hStep ih => exact stepKeepsTheInvariant _ _ ih hStep

/-- Settles O47, from the invariant of every reachable state; 0 is active, so it is not queued. -/
theorem invariantOfEveryReachableState : Obligations.InvariantOfEveryReachableState := by
  intro launch image t hLaunch hReachable
  have hInv := hReachable.inv hLaunch
  exact ⟨hInv.queueNodup, hInv.segment0, fun hIn => hInv.not_active_and_queued 0#32 ⟨hInv.segment0, hIn⟩,
    hInv.issued_iff, hInv.not_active_and_queued⟩

end Sys2Proof.Machine

/-! ## The memory: reads, writes, copies and the fetch that follows them (20_memory.md) -/

namespace Sys2Proof

/-! ### Decoding a word of format ThreeRegister (30_encoding.md R82, R89) -/

theorem shiftLeft_or_eq_add_of_lt {m k : Nat} (h : m < 2 ^ k) (n : Nat) :
    n <<< k ||| m = n * 2 ^ k + m := by
  rw [← Nat.shiftLeft_add_eq_or_of_lt h, Nat.shiftLeft_eq]

/-- The four parts of the encoder's formula do not overlap, so `|` adds them. -/
theorem toNat_encode3 (op : Fin 13) (a b c : Reg) :
    (encode3 op a b c).toNat = op.val * 2 ^ 28 + a.val * 2 ^ 6 + b.val * 2 ^ 3 + c.val := by
  have hFits : (encode3 op a b c).toNat = op.val <<< 28 ||| (a.val <<< 6 ||| (b.val <<< 3 ||| c.val)) := by
    simp only [encode3, BitVec.toNat_or, BitVec.toNat_shiftLeft, BitVec.toNat_ofNat, Nat.or_assoc,
      Nat.shiftLeft_eq]
    congr <;> omega
  rw [hFits, shiftLeft_or_eq_add_of_lt (k := 3) (by omega), shiftLeft_or_eq_add_of_lt (k := 6) (by omega),
    shiftLeft_or_eq_add_of_lt (k := 28) (by omega)]
  omega

theorem val_fieldA (w : Word) : (fieldA w).val = w.toNat / 2 ^ 6 % 8 := by
  simp [fieldA, Nat.shiftRight_eq_div_pow]

theorem val_fieldB (w : Word) : (fieldB w).val = w.toNat / 2 ^ 3 % 8 := by
  simp [fieldB, Nat.shiftRight_eq_div_pow]

theorem val_fieldC (w : Word) : (fieldC w).val = w.toNat % 8 := by
  simp [fieldC]

theorem fieldA_encode3 (op : Fin 13) (a b c : Reg) : fieldA (encode3 op a b c) = a := by
  rw [Fin.ext_iff, val_fieldA, toNat_encode3]
  omega

theorem fieldB_encode3 (op : Fin 13) (a b c : Reg) : fieldB (encode3 op a b c) = b := by
  rw [Fin.ext_iff, val_fieldB, toNat_encode3]
  omega

theorem fieldC_encode3 (op : Fin 13) (a b c : Reg) : fieldC (encode3 op a b c) = c := by
  rw [Fin.ext_iff, val_fieldC, toNat_encode3]
  omega

/-- The decoder reads back every tuple the encoder writes in this format. -/
theorem decodeFormat_encode3 (op : Fin 13) (a b c : Reg) :
    decodeFormat (encode3 op a b c) = .threeRegister op a b c := by
  have hOp : (opcodeField (encode3 op a b c)).toNat = op.val := Laws.OpcodeField.threeRegister op a b c
  simp [decodeFormat, hOp, fieldA_encode3, fieldB_encode3, fieldC_encode3]

theorem decode_encode3 (op : Fin 13) (a b c : Reg) :
    decode (encode3 op a b c) = (Decoded.threeRegister op a b c).toInstr :=
  congrArg Decoded.toInstr (decodeFormat_encode3 op a b c)

theorem toNat_ofNat_of_lt {k : Nat} (h : k < wordModulus) : (BitVec.ofNat 32 k : Word).toNat = k :=
  (BitVec.toNat_ofNat k 32).trans (Nat.mod_eq_of_lt h)

end Sys2Proof

namespace Sys2Proof.Machine

/-! ### A canonical segment table is what it reads as (20_memory.md R51; log entry 1) -/

theorem Segment.read_of_len_le {g : Segment} (hg : g.wf) {i : Nat} (hi : g.len ≤ i) :
    g.read i = 0#32 := by
  obtain ⟨-, -, hCells⟩ := hg
  unfold read
  cases hLookup : Table.lookup i g.cells with
  | none => rfl
  | some v => exact absurd (hCells _ (Table.mem_of_lookup hLookup)).1 (Nat.not_lt.2 hi)

theorem Memory.lookup_of_wordModulus_le {m : Memory} (hm : Memory.wf m) {k : Nat}
    (hk : wordModulus ≤ k) : Table.lookup k m = none := by
  obtain ⟨-, hEntries⟩ := hm
  refine Option.eq_none_iff_forall_ne_some.2 fun g hg => ?_
  exact absurd (hEntries _ (Table.mem_of_lookup hg)).1 (Nat.not_lt.2 hk)

/-- A canonical table has no key that is not a Word, so its identifiers determine it. -/
theorem Memory.ext_of_segment? {s t : State} (hs : Memory.wf s.seg) (ht : Memory.wf t.seg)
    (h : ∀ id : Word, t.segment? id = s.segment? id) : s.seg = t.seg := by
  refine Table.ext hs.1 ht.1 fun k => ?_
  rcases Nat.lt_or_ge k wordModulus with hk | hk
  · simpa only [State.segment?, toNat_ofNat_of_lt hk] using (h (BitVec.ofNat 32 k)).symm
  · rw [Memory.lookup_of_wordModulus_le hs hk, Memory.lookup_of_wordModulus_le ht hk]

namespace State

theorem segLen_of_segment? {s : State} {id : Word} {g : Segment} (h : s.segment? id = some g) :
    s.segLen id = g.len := by
  simp [segLen, h]

theorem memRead_of_segment? {s : State} {id : Word} {g : Segment} (h : s.segment? id = some g)
    {offset : Word} (hIn : offset.toNat < g.len) : s.memRead id offset = .ok (g.read offset.toNat) :=
  (memRead_ok_iff _ _ _ _).2 ⟨g, h, hIn, rfl⟩

theorem active_of_memRead {s : State} {id offset v : Word} (h : s.memRead id offset = .ok v) :
    s.active id = true := by
  obtain ⟨g, hg, -⟩ := (memRead_ok_iff _ _ _ _).1 h
  exact (active_iff _ _).2 ⟨g, hg⟩

end State

/-- Two canonical segments under one identifier that read the same are the same data: an offset in
range is a Word, and beyond the length both read 0. -/
theorem SameMemory.segment?_eq {s t : State} (h : SameMemory s t) (hs : Memory.wf s.seg)
    (ht : Memory.wf t.seg) (id : Word) : t.segment? id = s.segment? id := by
  have hActive := h.active id
  cases hsg : s.segment? id with
  | none => rwa [(State.active_eq_false_iff s id).2 hsg, State.active_eq_false_iff] at hActive
  | some g =>
    rw [(State.active_iff s id).2 ⟨g, hsg⟩, State.active_iff] at hActive
    obtain ⟨g', htg⟩ := hActive
    have hg := State.segment_wf hs hsg
    have hg' := State.segment_wf ht htg
    have hLen : g'.len = g.len := by
      rw [← State.segLen_of_segment? htg, h.lengths, State.segLen_of_segment? hsg]
    refine htg.trans (congrArg some (Segment.ext_of_read hg' hg hLen fun i => ?_))
    rcases Nat.lt_or_ge i g.len with hi | hi
    · obtain ⟨hMax, -⟩ := hg
      have hWord := toNat_ofNat_of_lt (hi.trans_le (hMax.trans (by decide)))
      have hRead := h.words id (BitVec.ofNat 32 i)
      rw [State.memRead_of_segment? hsg (by rwa [hWord]),
        State.memRead_of_segment? htg (by rwa [hWord, hLen]), hWord] at hRead
      exact Except.ok.inj hRead
    · rw [Segment.read_of_len_le hg hi, Segment.read_of_len_le hg' (hLen.trans_le hi)]

/-- Settles O49: the reads determine each segment, and the segments determine the table. -/
theorem equalMemoriesAreEqualData : Obligations.EqualMemoriesAreEqualData :=
  fun _ _ hs ht h => Memory.ext_of_segment? hs ht (h.segment?_eq hs ht)

/-! ### `MemWrite`: its frame and its failures (20_memory.md R52) -/

namespace State

theorem memRead_memWrite_of_ne {s t : State} {id offset v : Word} (h : s.memWrite id offset v = .ok t)
    {j : Word} (hj : j ≠ id) (k : Word) : t.memRead j k = s.memRead j k := by
  rw [memRead_memWrite h, if_neg fun e => hj e.1]

theorem memRead_memWrite_self {s t : State} {id offset v : Word}
    (h : s.memWrite id offset v = .ok t) : t.memRead id offset = .ok v := by
  rw [memRead_memWrite h, if_pos ⟨rfl, rfl⟩]

theorem sameMemoryBut_memWrite {s t : State} {id offset v : Word}
    (h : s.memWrite id offset v = .ok t) : SameMemoryBut id offset s t where
  words j k hne := by rw [memRead_memWrite h, if_neg (not_and_or.2 hne)]
  lengths := segLen_memWrite h
  active := active_memWrite h

/-- A store changes nothing beside the memory. -/
theorem memWrite_frame {s t : State} {id offset v : Word} (h : s.memWrite id offset v = .ok t) :
    SameRegs s t ∧ t.pc = s.pc ∧ SameAllocator s t ∧ SameStreams s t ∧ SameEngine s t := by
  obtain ⟨g, -, -, rfl⟩ := (memWrite_ok_iff _ _ _ _ _).1 h
  exact ⟨fun _ => rfl, rfl, ⟨rfl, rfl⟩, ⟨rfl, rfl⟩, ⟨rfl, rfl⟩⟩

theorem memWrite_of_inactive {s : State} {id : Word} (h : s.active id = false) (offset v : Word) :
    s.memWrite id offset v = .error .invalidSegmentAccess := by
  simp [memWrite, (active_eq_false_iff _ _).1 h]

theorem memWrite_of_segLen_le {s : State} {id offset : Word} (h : s.active id = true)
    (hOut : s.segLen id ≤ offset.toNat) (v : Word) : s.memWrite id offset v = .error .outOfBounds := by
  obtain ⟨g, hg⟩ := (active_iff _ _).1 h
  rw [segLen_of_segment? hg] at hOut
  simp [memWrite, hg, hOut]

end State

theorem execSegmentStore_fails {a b c : Reg} {s : State} {reason : FailReason}
    (h : s.memWrite (s.reg a) (s.reg b) (s.reg c) = .error reason) :
    ∃ t, exec (.segmentStore a b c) s = .next t ∧ FailsOnly reason s t :=
  ⟨_, (execSegmentStore_next_iff _ _ _ _ _).2 (.inr ⟨reason, h, rfl⟩), .failed s reason⟩

/-- Settles O23, by the three outcomes of the store. -/
theorem segmentStoreResult : Obligations.SegmentStoreResult := by
  intro a b c s
  refine ⟨decode_encode3 2 a b c, fun hActive hIn => ?_, fun hInactive => ?_, fun hActive hOut => ?_⟩
  · obtain ⟨t, hOk⟩ := State.memWrite_of_active hActive hIn (s.reg c)
    exact ⟨t, (execSegmentStore_next_iff _ _ _ _ _).2 (.inl hOk), State.memRead_memWrite_self hOk,
      State.sameMemoryBut_memWrite hOk, State.memWrite_frame hOk⟩
  · exact execSegmentStore_fails (State.memWrite_of_inactive hInactive _ _)
  · exact execSegmentStore_fails (State.memWrite_of_segLen_le hActive hOut _)

/-! ### `ReplaceSeg0`: segment 0 reads as the source (20_memory.md R62, R63) -/

namespace State

theorem memRead_replaceSeg0 {s t : State} {id : Word} (h : s.replaceSeg0 id = .ok t) (j k : Word) :
    t.memRead j k = if j = 0#32 then s.memRead id k else s.memRead j k := by
  obtain ⟨g, hg, -, rfl⟩ := (replaceSeg0_ok_iff _ _ _).1 h
  unfold memRead
  rw [segment?_putSegment]
  split_ifs <;> simp [hg]

theorem replaceSeg0_status {s t : State} {id : Word} (h : s.replaceSeg0 id = .ok t) :
    t.status = s.status := by
  obtain ⟨g, -, -, rfl⟩ := (replaceSeg0_ok_iff _ _ _).1 h
  rfl

/-- With unbounded storage a copy of an active segment succeeds. -/
theorem replaceSeg0_of_active {s : State} {id : Word} (h : s.active id = true)
    (hUnbounded : s.launch.storeCapacityWords = none) : ∃ t, s.replaceSeg0 id = .ok t := by
  obtain ⟨g, hg⟩ := (active_iff _ _).1 h
  exact ⟨_, (replaceSeg0_ok_iff _ _ _).2 ⟨g, hg, exceedsCapacity_unbounded hUnbounded _, rfl⟩⟩

end State

/-- Settles O30: a write is read back through its own identifier alone, so neither the copy nor its
source sees a write to the other. -/
theorem segmentsNeverAlias : Obligations.SegmentsNeverAlias := by
  refine ⟨fun s t id offset v hWrite j k hj => State.memRead_memWrite_of_ne hWrite hj k, ?_⟩
  intro s t u id offset v hNonzero hCopy
  have hSeg0 : ∀ k : Word, t.memRead 0#32 k = s.memRead id k := fun k => by
    rw [State.memRead_replaceSeg0 hCopy, if_pos rfl]
  have hSource : ∀ k : Word, t.memRead id k = s.memRead id k := fun k => by
    rw [State.memRead_replaceSeg0 hCopy, if_neg hNonzero]
  exact ⟨hSeg0,
    fun hWrite k => (State.memRead_memWrite_of_ne hWrite hNonzero.symm k).trans (hSeg0 k),
    fun hWrite k => (State.memRead_memWrite_of_ne hWrite hNonzero k).trans (hSource k)⟩

/-! ### A reissued identifier (20_memory.md R60, R61, R64) -/

namespace State

@[simp] theorem memRead_setReg (s : State) (i : Reg) (v id offset : Word) :
    (s.setReg i v).memRead id offset = s.memRead id offset := rfl

/-- While an identifier waits and storage is unbounded, an allocation succeeds and takes the oldest. -/
theorem alloc_of_queue {s : State} {id : Word} {rest : List Word} (hQueue : s.queue = id :: rest)
    (hUnbounded : s.launch.storeCapacityWords = none) (n : Word) : ∃ t, s.alloc n = .ok (id, t) :=
  ⟨_, (alloc_ok_iff _ _ _ _).2 ⟨idsExhausted_of_queue (by simp [hQueue]),
    exceedsCapacity_unbounded hUnbounded _, by rw [takeId_of_queue hQueue], rfl⟩⟩

theorem segLen_alloc_self {s t : State} {n id : Word} (h : s.alloc n = .ok (id, t)) :
    t.segLen id = n.toNat :=
  segLen_of_segment? (by rw [segment?_alloc h, if_pos rfl])

theorem memRead_alloc_self {s t : State} {n id k : Word} (h : s.alloc n = .ok (id, t))
    (hk : k.toNat < n.toNat) : t.memRead id k = .ok 0#32 :=
  memRead_of_segment? (g := Segment.zeros n.toNat) (by rw [segment?_alloc h, if_pos rfl]) hk

theorem unmap_of_active {s : State} {id : Word} (hNonzero : id ≠ 0#32) (hActive : s.active id = true)
    (hIssued : id.toNat < s.storeSize) : unmap s id = .ok (s.release id) :=
  (unmap_ok_iff _ _ _).2 ⟨hNonzero, by simp [released, hActive], hIssued, rfl⟩

end State

/-- Settles O29: the release queues the identifier alone, so the allocation takes it. -/
theorem reissuedIdentifierNamesTheNewSegment : Obligations.ReissuedIdentifierNamesTheNewSegment := by
  intro s b c d hRunning hQueue hUnbounded hNonzero hActive hIssued
  have hReleased : (s.release (s.reg c)).queue = [s.reg c] := by simp [hQueue]
  obtain ⟨u, hAlloc⟩ := State.alloc_of_queue hReleased hUnbounded (s.reg d)
  obtain ⟨-, -, hStatus, -⟩ := State.alloc_rest hAlloc
  exact ⟨s.release (s.reg c), u.setReg b (s.reg c),
    (execUnmapSegment_next_iff _ _ _).2 (.inl (State.unmap_of_active hNonzero hActive hIssued)),
    (execMapSegment_next_iff _ _ _ _).2 (.inl ⟨_, _, hAlloc, rfl⟩),
    hStatus.trans hRunning, State.reg_setReg_self _ _ _,
    (State.segLen_setReg _ _ _ _).trans (State.segLen_alloc_self hAlloc),
    fun k hk => (State.memRead_setReg _ _ _ _ _).trans (State.memRead_alloc_self hAlloc hk)⟩

/-! ### The fetch sees the memory as the step before left it (20_memory.md R53, R72) -/

theorem step_of_memRead {s : State} {w : Word} (hRunning : s.status = .running)
    (hRead : s.memRead 0#32 s.pc = .ok w) : step s = exec (decode w) s.advancePc := by
  simp [step, hRunning, (State.fetch?_eq_some_iff_memRead _ _).2 hRead]

theorem step_of_segLen_le {s : State} (hRunning : s.status = .running)
    (hOut : s.segLen 0#32 ≤ s.pc.toNat) : step s = raise .programCounterOutOfRange s := by
  simp [step, hRunning, (State.fetch?_eq_none_iff _).2 hOut]

/-- Settles O35: the store keeps the pc and the status, and the next fetch reads back the word it
stored. -/
theorem storeIntoSegment0IsFetchedNext : Obligations.StoreIntoSegment0IsFetchedNext := by
  intro s w a b c hRunning hRead hDecode hSeg0 hOffset hIn
  obtain ⟨t, hOk⟩ : ∃ t, s.advancePc.memWrite 0#32 (s.pc + 1) (s.reg c) = .ok t :=
    State.memWrite_of_active (s := s.advancePc) (State.active_of_memRead hRead) hIn _
  obtain ⟨-, hPc, -, -, hEngine⟩ := State.memWrite_frame hOk
  have hNext : t.memRead 0#32 t.pc = .ok (s.reg c) := hPc ▸ State.memRead_memWrite_self hOk
  refine ⟨t, ?_, hPc, ?_⟩
  · rw [step_of_memRead hRunning hRead, hDecode, execSegmentStore_next_iff]
    exact .inl (by simpa [hSeg0, hOffset] using hOk)
  · rw [step_of_memRead (hEngine.status.trans hRunning) hNext, State.advancePc, hPc]
    rfl

/-- Settles O36: the copy makes segment 0 read as the source, so the next fetch is at the target in it. -/
theorem loadProgramRunsTheNewSegment0 : Obligations.LoadProgramRunsTheNewSegment0 := by
  intro s w b c hRunning hRead hDecode hNonzero hActive hUnbounded
  obtain ⟨u, hCopy⟩ : ∃ u, s.advancePc.replaceSeg0 (s.reg b) = .ok u :=
    State.replaceSeg0_of_active hActive hUnbounded
  have hStatus : (u.setPc (s.reg c)).status = .running := (State.replaceSeg0_status hCopy).trans hRunning
  refine ⟨u.setPc (s.reg c), ?_, hStatus, rfl, fun v hv => ?_, fun hOut => ?_⟩
  · rw [step_of_memRead hRunning hRead, hDecode, execLoadProgram_next_iff]
    exact .inl ⟨u, (State.loadSegment0_ok_iff _ _ _).2 (.inr ⟨hNonzero, hCopy⟩), rfl⟩
  · have hNext : u.memRead 0#32 (s.reg c) = .ok v := (State.memRead_replaceSeg0 hCopy _ _).trans hv
    exact step_of_memRead hStatus hNext
  · have hLen : u.segLen 0#32 = s.segLen (s.reg b) := State.segLen_replaceSeg0 hCopy _
    exact ⟨_, step_of_segLen_le hStatus (hLen.trans_le hOut), .failed _ _⟩

end Sys2Proof.Machine

/-! ## The encoding: fields, decoder and encoder, and the assembler's spelling (30_encoding.md) -/

namespace Sys2Proof

/-! ### The fields of a word as numbers (30_encoding.md R81, R83) -/

theorem toNat_opcodeField (w : Word) : (opcodeField w).toNat = w.toNat / 2 ^ 28 := by
  simp only [opcodeField, BitVec.extractLsb'_toNat, Nat.shiftRight_eq_div_pow]
  omega

theorem val_fieldImmediateA (w : Word) : (fieldImmediateA w).val = w.toNat / 2 ^ 25 % 8 := by
  simp [fieldImmediateA, Nat.shiftRight_eq_div_pow]

theorem toNat_fieldValue (w : Word) : (fieldValue w).toNat = w.toNat % 2 ^ 25 := by
  simp only [fieldValue, BitVec.toNat_setWidth, BitVec.extractLsb'_toNat, Nat.shiftRight_zero]
  omega

theorem immediateFits_fieldValue (w : Word) : ImmediateFits (fieldValue w) :=
  (toNat_fieldValue w).trans_lt (Nat.mod_lt _ (by decide))

/-! ### The decoder, by the number in bits 31 to 28 (30_encoding.md R85, R87) -/

theorem decodeFormat_of_threeRegister {w : Word} (op : Fin 13) (h : w.toNat / 2 ^ 28 = op.val) :
    decodeFormat w = .threeRegister op (fieldA w) (fieldB w) (fieldC w) := by
  simp [decodeFormat, (toNat_opcodeField w).trans h]

theorem decodeFormat_of_loadImmediate {w : Word} (h : w.toNat / 2 ^ 28 = 13) :
    decodeFormat w = .loadImmediate (fieldImmediateA w) (fieldValue w) := by
  simp [decodeFormat, (toNat_opcodeField w).trans h]

theorem decodeFormat_of_unknown {w : Word} (rawOpcode : Fin 2) (h : w.toNat / 2 ^ 28 = 14 + rawOpcode.val) :
    decodeFormat w = .unknown rawOpcode := by
  match rawOpcode with
  | 0 => simp [decodeFormat, (toNat_opcodeField w).trans h]
  | 1 => simp [decodeFormat, (toNat_opcodeField w).trans h]

/-- A decoded immediate is `w[24:0]`, so it fits in 25 bits. -/
theorem immediateFits_of_decodeFormat {w value : Word} {a : Reg}
    (h : decodeFormat w = .loadImmediate a value) : ImmediateFits value := by
  simp only [decodeFormat] at h
  split_ifs at h
  cases h
  exact immediateFits_fieldValue w

/-- Settles O4: the opcode picks the format and the row, and the fields are the numbers given. -/
theorem opcodeMapOfEveryWord : Obligations.OpcodeMapOfEveryWord := by
  intro w a b c la v ha hb hc hla hv
  obtain rfl : fieldA w = a := Fin.ext ((val_fieldA w).trans ha.symm)
  obtain rfl : fieldB w = b := Fin.ext ((val_fieldB w).trans hb.symm)
  obtain rfl : fieldC w = c := Fin.ext ((val_fieldC w).trans hc.symm)
  obtain rfl : fieldImmediateA w = la := Fin.ext ((val_fieldImmediateA w).trans hla.symm)
  obtain rfl : fieldValue w = v := BitVec.eq_of_toNat_eq ((toNat_fieldValue w).trans hv.symm)
  have hRow (op : Fin 13) (h : w.toNat / 2 ^ 28 = op.val) :
      decode w = (Decoded.threeRegister op (fieldA w) (fieldB w) (fieldC w)).toInstr :=
    congrArg Decoded.toInstr (decodeFormat_of_threeRegister op h)
  exact ⟨hRow 0, hRow 1, hRow 2, hRow 3, hRow 4, hRow 5, hRow 6, hRow 7, hRow 8, hRow 9, hRow 10,
    hRow 11, hRow 12, fun h => congrArg Decoded.toInstr (decodeFormat_of_loadImmediate h),
    fun h => congrArg Decoded.toInstr (decodeFormat_of_unknown 0 h),
    fun h => congrArg Decoded.toInstr (decodeFormat_of_unknown 1 h)⟩

/-! ### The encoder's formulas and the round trip (30_encoding.md R89) -/

/-- The three parts of the immediate form do not overlap, so `|` adds them. -/
theorem toNat_encodeLI (a : Reg) (v : Nat) :
    (encodeLI a v).toNat = 13 * 2 ^ 28 + a.val * 2 ^ 25 + v % 2 ^ 25 := by
  have hFits : (encodeLI a v).toNat = 13 <<< 28 ||| (a.val <<< 25 ||| v % 2 ^ 25) := by
    simp only [encodeLI, BitVec.toNat_or, BitVec.toNat_shiftLeft, BitVec.toNat_ofNat, Nat.or_assoc,
      Nat.shiftLeft_eq, immediateModulus]
    congr 2 <;> omega
  rw [hFits, shiftLeft_or_eq_add_of_lt (k := 25) (by omega), shiftLeft_or_eq_add_of_lt (k := 28) (by omega)]
  omega

theorem decodeFormat_encodeLI (a : Reg) (v : Nat) :
    decodeFormat (encodeLI a v) = .loadImmediate a (BitVec.ofNat 32 (v % immediateModulus)) := by
  simp [decodeFormat, opcodeField_encodeLI, fieldImmediateA_encodeLI, fieldValue_encodeLI]

theorem decode_encodeLI {a : Reg} {value : Word} (h : ImmediateFits value) :
    decode (encodeLI a value.toNat) = .loadImmediate a value := by
  rw [decode, decodeFormat_encodeLI, Nat.mod_eq_of_lt h, BitVec.ofNat_toNat, BitVec.setWidth_eq]
  rfl

theorem decode_encodeUnknown : ∀ rawOpcode : Fin 2,
    decode (encodeUnknown rawOpcode) = (Decoded.unknown rawOpcode).toInstr := by
  decide

theorem extractLsb'_eq_ofNat_div (w : Word) (start len : Nat) :
    w.extractLsb' start len = BitVec.ofNat len (w.toNat / 2 ^ start) := by
  rw [BitVec.extractLsb', Nat.shiftRight_eq_div_pow]

/-- Settles O2, by the format of the row: every format's encoder is read back by the decoder. -/
theorem decodeOfEncodeIsTheInstruction : Obligations.DecodeOfEncodeIsTheInstruction := by
  intro i hWellFormed
  cases i with
  | conditionalMove a b c => exact decode_encode3 0 a b c
  | segmentLoad a b c => exact decode_encode3 1 a b c
  | segmentStore a b c => exact decode_encode3 2 a b c
  | add a b c => exact decode_encode3 3 a b c
  | multiply a b c => exact decode_encode3 4 a b c
  | divide a b c => exact decode_encode3 5 a b c
  | nand a b c => exact decode_encode3 6 a b c
  | halt => exact decode_encode3 7 0 0 0
  | mapSegment b c => exact decode_encode3 8 0 b c
  | unmapSegment c => exact decode_encode3 9 0 0 c
  | output c => exact decode_encode3 10 0 0 c
  | input c => exact decode_encode3 11 0 0 c
  | loadProgram b c => exact decode_encode3 12 0 b c
  | loadImmediate a value => exact decode_encodeLI (of_decide_eq_true hWellFormed)
  | unknown14 => exact decode_encodeUnknown 0
  | unknown15 => exact decode_encodeUnknown 1

/-- Settles O1: the formulas as sums, the tuples read back, and the bytes as quotients of the word. -/
theorem encoderFormulasAndRoundTrip : Obligations.EncoderFormulasAndRoundTrip := by
  refine ⟨fun op a b c => ⟨toNat_encode3 op a b c, decodeFormat_encode3 op a b c⟩,
    fun a v => ⟨toNat_encodeLI a v, decodeFormat_encodeLI a v⟩,
    fun a b c => by simp only [encode, and_self], fun a v => rfl, fun w ws => ?_⟩
  simp only [imageOfWords, List.flatMap_cons, bytesOfWord, extractLsb'_eq_ofNat_div, Nat.pow_zero,
    Nat.div_one]

/-- A decoded form stands for a well-formed instruction where its immediate, if any, fits. -/
theorem wellFormed_toInstr {d : Decoded} (h : ∀ a value, d = .loadImmediate a value → ImmediateFits value) :
    d.toInstr.WellFormed = true := by
  match d with
  | .threeRegister op a b c => fin_cases op <;> rfl
  | .loadImmediate a value => exact decide_eq_true (h a value rfl)
  | .unknown rawOpcode => fin_cases rawOpcode <;> rfl

theorem wellFormed_decode (w : Word) : (decode w).WellFormed = true :=
  wellFormed_toInstr fun _ _ => immediateFits_of_decodeFormat

/-- Settles O3: a decoded instruction is well-formed, so its own encoding is read back. -/
theorem everyWordDecodesWellFormed : Obligations.EveryWordDecodesWellFormed := fun w =>
  ⟨wellFormed_decode w, decodeOfEncodeIsTheInstruction _ (wellFormed_decode w)⟩

end Sys2Proof

namespace Sys2Proof.Machine

/-! ### Digits (30_encoding.md R90) -/

theorem toNat_digitChar : ∀ d < 10, (digitChar d).toNat = 48 + d := by
  decide

theorem digitValue_digitChar {base d : Nat} (hd : d < 10) (hBase : d < base) :
    digitValue base (digitChar d) = some d := by
  have hChar : (digitChar d).toNat = 48 + d := toNat_digitChar d hd
  have hRange : 48 ≤ 48 + d ∧ 48 + d ≤ 57 := by omega
  simp [digitValue, hChar, hRange, hBase]

theorem isDigit_digitChar : ∀ d < 10, (digitChar d).isDigit = true := by
  decide

/-- Reading the digits of a number leaves the number as the value read so far. -/
theorem digitsValue_decimalDigits {fuel n : Nat} (h : n < 10 ^ fuel) (written : List Char) :
    digitsValue 10 0 (decimalDigits fuel n written) = digitsValue 10 n written := by
  induction fuel generalizing n written with
  | zero =>
    obtain rfl : n = 0 := by simpa using h
    rfl
  | succ fuel ih =>
    unfold decimalDigits
    split
    next hn => simp [digitsValue, digitValue_digitChar hn hn]
    next hn =>
      have hLast : n % 10 < 10 := Nat.mod_lt _ (by decide)
      rw [ih (by rw [Nat.pow_succ] at h; omega)]
      simp only [digitsValue, digitValue_digitChar hLast hLast, Nat.div_add_mod]

theorem isDigit_of_mem_decimalDigits {fuel n : Nat} {written : List Char}
    (h : ∀ c ∈ written, c.isDigit = true) : ∀ c ∈ decimalDigits fuel n written, c.isDigit = true := by
  induction fuel generalizing n written with
  | zero => exact h
  | succ fuel ih =>
    unfold decimalDigits
    split
    next hn => exact List.forall_mem_cons.2 ⟨isDigit_digitChar _ hn, h⟩
    next => exact ih (List.forall_mem_cons.2 ⟨isDigit_digitChar _ (Nat.mod_lt _ (by decide)), h⟩)

theorem decimalDigits_ne_nil {fuel n : Nat} {written : List Char} (h : fuel ≠ 0 ∨ written ≠ []) :
    decimalDigits fuel n written ≠ [] := by
  induction fuel generalizing n written with
  | zero => exact h.resolve_left fun hZero => hZero rfl
  | succ fuel ih =>
    unfold decimalDigits
    split
    next => exact List.cons_ne_nil _ _
    next => exact ih (.inr (List.cons_ne_nil _ _))

/-- A word of digits is neither a register nor of the `0x` form. -/
theorem operandOf_of_digits {text : List Char} (hDigits : ∀ c ∈ text, c.isDigit = true)
    (hNonempty : text ≠ []) : operandOf text = (digitsValue 10 0 text).map .number := by
  unfold operandOf
  split
  next => exact absurd rfl hNonempty
  next => exact absurd (hDigits 'r' (by simp)) (by decide)
  next => exact absurd (hDigits 'x' (by simp)) (by decide)
  next => rfl

/-! ### The spelling of an operand -/

/-- How an operand is written: a register by its name, a number in decimal. -/
def operandText : Operand → List Char
  | .register r => registerText r
  | .number n => decimalDigits 10 n []

/-- The numbers that `decimalDigits 10` writes in full. -/
def Operand.Writable : Operand → Prop
  | .register _ => True
  | .number n => n < 10 ^ 10

theorem operandOf_registerText (r : Reg) : operandOf (registerText r) = some (.register r) := by
  simp [operandOf, registerText, digitValue_digitChar (d := r.val) (base := 8) (by omega) r.isLt]

theorem operandOf_operandText {operand : Operand} (h : operand.Writable) :
    operandOf (operandText operand) = some operand := by
  cases operand with
  | register r => exact operandOf_registerText r
  | number n =>
    have hDigits : ∀ c ∈ decimalDigits 10 n [], c.isDigit = true := isDigit_of_mem_decimalDigits (by simp)
    have hNonempty : decimalDigits 10 n [] ≠ [] := decimalDigits_ne_nil (.inl (by decide))
    have hValue : digitsValue 10 0 (decimalDigits 10 n []) = some n := digitsValue_decimalDigits h []
    rw [operandText, operandOf_of_digits hDigits hNonempty, hValue]
    rfl

theorem isAlphanum_of_isDigit {c : Char} (h : c.isDigit = true) : c.isAlphanum = true := by
  simp [Char.isAlphanum, h]

/-- Letters and digits, at least one: what names and operands are written with, and what the tokenizer
reads as one word. -/
def IsWord (text : List Char) : Prop := text ≠ [] ∧ ∀ c ∈ text, c.isAlphanum = true

theorem isWord_operandText (operand : Operand) : IsWord (operandText operand) := by
  cases operand with
  | register r =>
    have hDigit : (digitChar r.val).isAlphanum = true :=
      isAlphanum_of_isDigit (isDigit_digitChar r.val (by omega))
    exact ⟨List.cons_ne_nil _ _, List.forall_mem_cons.2 ⟨by decide, List.forall_mem_singleton.2 hDigit⟩⟩
  | number n =>
    exact ⟨decimalDigits_ne_nil (.inl (by decide)),
      fun c hc => isAlphanum_of_isDigit (isDigit_of_mem_decimalDigits (by simp) c hc)⟩

/-! ### Tokens -/

/-- A letter or a digit is none of the characters that end a word. -/
theorem tokens_cons_of_isAlphanum {c : Char} (h : c.isAlphanum = true) (read rest : List Char) :
    tokens read (c :: rest) = tokens (c :: read) rest := by
  have hNe (d : Char) (hd : d.isAlphanum = false) : c ≠ d := by
    rintro rfl
    simp [hd] at h
  simp [tokens, hNe '(' (by decide), hNe ')' (by decide), hNe ',' (by decide), hNe '\n' (by decide),
    hNe ' ' (by decide)]

theorem tokens_append_of_isAlphanum {text : List Char} (h : ∀ c ∈ text, c.isAlphanum = true)
    (read rest : List Char) : tokens read (text ++ rest) = tokens (text.reverse ++ read) rest := by
  induction text generalizing read with
  | nil => rfl
  | cons c cs ih =>
    obtain ⟨hc, hcs⟩ := List.forall_mem_cons.1 h
    rw [List.cons_append, tokens_cons_of_isAlphanum hc, ih hcs, List.reverse_cons, List.append_assoc]
    rfl

theorem flushWord_reverse {text : List Char} (h : text ≠ []) : flushWord text.reverse = [.word text] := by
  cases hReverse : text.reverse with
  | nil => exact absurd (List.reverse_eq_nil_iff.1 hReverse) h
  | cons c cs => rw [flushWord, ← hReverse, List.reverse_reverse]

/-- Where the rest of a text begins by ending a word, the word before it is one token. -/
theorem tokens_word {text rest : List Char} {ts : List Token} (h : IsWord text)
    (hRest : ∀ read, tokens read rest = flushWord read ++ ts) :
    tokens [] (text ++ rest) = .word text :: ts := by
  obtain ⟨hNonempty, hAlphanum⟩ := h
  rw [tokens_append_of_isAlphanum hAlphanum, hRest, List.append_nil, flushWord_reverse hNonempty]
  rfl

/-! ### Reading a call -/

theorem operandsText_cons_cons (x y : List Char) (rest : List (List Char)) :
    operandsText (x :: y :: rest) = x ++ ([',', ' '] ++ operandsText (y :: rest)) :=
  List.append_assoc _ _ _

/-- Reading an operand list up to its closing parenthesis, after the operands `before` (last first). -/
theorem instrsOf_operandsText {name : List Char} {i : Instr} (operands before : List Operand)
    (hNonempty : operands ≠ []) (hWritable : ∀ operand ∈ operands, operand.Writable)
    (hInstr : instrOf name (before.reverse ++ operands) = some i) :
    instrsOf (.wantsOperand name before) (tokens [] (operandsText (operands.map operandText) ++ [')'])) =
      some [i] := by
  induction operands generalizing before with
  | nil => exact absurd rfl hNonempty
  | cons operand rest ih =>
    obtain ⟨hOperand, hRest⟩ := List.forall_mem_cons.1 hWritable
    have hOperandText : IsWord (operandText operand) := isWord_operandText operand
    have hRead : operandOf (operandText operand) = some operand := operandOf_operandText hOperand
    cases rest with
    | nil =>
      have hTokens : tokens [] (operandText operand ++ [')']) = [.word (operandText operand), .closeParen] :=
        tokens_word hOperandText fun _ => rfl
      simp [operandsText, hTokens, instrsOf, hRead, hInstr]
    | cons next rest =>
      have hTokens : tokens [] (operandsText ((operand :: next :: rest).map operandText) ++ [')']) =
          .word (operandText operand) :: .comma ::
            tokens [] (operandsText ((next :: rest).map operandText) ++ [')']) := by
        rw [List.map_cons, List.map_cons, operandsText_cons_cons, List.append_assoc]
        exact tokens_word hOperandText fun _ => rfl
      have hMore := ih (operand :: before) (List.cons_ne_nil _ _) hRest (by simpa using hInstr)
      simpa only [hTokens, instrsOf, hRead] using hMore

theorem parseProgram_callText {name : String} {operands : List Operand} {i : Instr}
    (hName : IsWord name.toList) (hNonempty : operands ≠ [])
    (hWritable : ∀ operand ∈ operands, operand.Writable) (hInstr : instrOf name.toList operands = some i) :
    parseProgram (callText name (operands.map operandText)) = some [i] := by
  have hCall : tokens [] (callText name (operands.map operandText)) =
      .word name.toList :: .openParen :: tokens [] (operandsText (operands.map operandText) ++ [')']) := by
    rw [callText, List.append_assoc, List.append_assoc]
    exact tokens_word hName fun _ => rfl
  rw [parseProgram, hCall]
  exact instrsOf_operandsText operands [] hNonempty hWritable hInstr

/-- A call whose operands are all registers. -/
theorem parseProgram_callText_registers {name : String} {regs : List Reg} {i : Instr}
    (hName : IsWord name.toList) (hNonempty : regs ≠ [])
    (hInstr : instrOf name.toList (regs.map .register) = some i) :
    parseProgram (callText name (regs.map registerText)) = some [i] := by
  have hCall : parseProgram (callText name ((regs.map .register).map operandText)) = some [i] :=
    parseProgram_callText hName (by simpa using hNonempty) (by simp [Operand.Writable]) hInstr
  rwa [List.map_map] at hCall

/-- Settles O6: each spelling but `Halt` is a call of its name with its operands. -/
theorem assemblerReadsWhatItWrites : Obligations.AssemblerReadsWhatItWrites := by
  intro i text hWellFormed hText
  cases i <;> cases hText
  case halt => decide
  case conditionalMove a b c | segmentLoad a b c | segmentStore a b c | add a b c | multiply a b c |
      divide a b c | nand a b c =>
    exact parseProgram_callText_registers (regs := [a, b, c]) (by simp [IsWord]) (by simp) (by simp [instrOf])
  case mapSegment b c | loadProgram b c =>
    exact parseProgram_callText_registers (regs := [b, c]) (by simp [IsWord]) (by simp) (by simp [instrOf])
  case unmapSegment c | output c | input c =>
    exact parseProgram_callText_registers (regs := [c]) (by simp [IsWord]) (by simp) (by simp [instrOf])
  case loadImmediate a value =>
    have hFits : value.toNat < immediateModulus := of_decide_eq_true hWellFormed
    have hWritable : value.toNat < 10 ^ 10 := by omega
    exact parseProgram_callText (operands := [.register a, .number value.toNat]) (by simp [IsWord]) (by simp)
      (by simpa [Operand.Writable] using hWritable) (by simp [instrOf, Nat.mod_eq_of_lt hFits])

end Sys2Proof.Machine

/-! ## The engine: the fetch, the dispatch and how a step ends (40_fetch_execute.md) -/

namespace Sys2Proof.Machine

/-! ### The range check and the fetch (40_fetch_execute.md R102, R103) -/

/-- Settles O8: a pc at or beyond the length fails the range check, and so every pc of an empty segment 0. -/
theorem fetchBeyondSegment0Fails : Obligations.FetchBeyondSegment0Fails := by
  intro s hRunning
  have hFails (hOut : s.segLen 0#32 ≤ s.pc.toNat) :
      ∃ t, step s = .next t ∧ FailsOnly .programCounterOutOfRange s t :=
    ⟨_, step_of_segLen_le hRunning hOut, .failed s _⟩
  refine ⟨hFails, fun hEmpty => ?_⟩
  obtain ⟨t, hStep, hFailed⟩ := hFails (hEmpty.trans_le (Nat.zero_le _))
  exact ⟨t, hStep, hFailed.status⟩

/-- In a canonical memory a pc in range is below 2^32 − 1, so the fetch's increment does not wrap. -/
theorem State.toNat_pc_add_one {s : State} (hMemory : Memory.wf s.seg) (hIn : s.pc.toNat < s.segLen 0#32) :
    (s.pc + 1).toNat = s.pc.toNat + 1 := by
  have hMax := State.segLen_le_of_wf hMemory 0#32
  rw [BitVec.toNat_add, show BitVec.toNat (1 : Word) = 1 from rfl]
  omega

/-! ### The placed word (log entry 6) -/

theorem Segment.lt_place_len (g : Segment) (at_ : Nat) (w : Word) : at_ < (g.place at_ w).len :=
  Nat.le_max_right _ _

theorem Segment.read_place_self (g : Segment) (at_ : Nat) (w : Word) : (g.place at_ w).read at_ = w := by
  rw [place, read_write, if_pos rfl]

namespace State

theorem segment?_withFetchWord (s : State) (nbits w : Nat) (id : Word) :
    (s.withFetchWord nbits w).segment? id =
      if id = 0#32 then
        some (((s.segment? 0#32).getD Segment.empty).place s.pc.toNat (BitVec.ofNat 32 (w % 2 ^ nbits)))
      else s.segment? id :=
  segment?_putSegment s 0#32 id _

theorem memRead_withFetchWord (s : State) (w : Nat) :
    (s.withFetchWord 32 w).memRead 0#32 s.pc = .ok (BitVec.ofNat 32 w) := by
  have hSegment := (s.segment?_withFetchWord 32 w 0#32).trans (if_pos rfl)
  have hWord : BitVec.ofNat 32 (w % 2 ^ 32) = BitVec.ofNat 32 w :=
    BitVec.eq_of_toNat_eq (Nat.mod_mod w (2 ^ 32))
  rw [memRead_of_segment? hSegment (Segment.lt_place_len _ _ _), Segment.read_place_self, hWord]

theorem sameMemoryOutside_withFetchWord (s : State) (nbits w : Nat) :
    SameMemoryOutside 0#32 s (s.withFetchWord nbits w) := by
  have hSame {j : Word} (hj : j ≠ 0#32) : (s.withFetchWord nbits w).segment? j = s.segment? j := by
    rw [segment?_withFetchWord, if_neg hj]
  exact ⟨fun _ k hj => memRead_congr (hSame hj) k, fun _ hj => segLen_congr (hSame hj),
    fun _ hj => active_congr (hSame hj)⟩

end State

/-- Settles O15: the placement starts the engine and the fetch reads the placed word. -/
theorem placedWordRunsNext : Obligations.PlacedWordRunsNext := fun s w =>
  ⟨step_of_memRead rfl (s.memRead_withFetchWord w), fun _ => rfl, s.sameMemoryOutside_withFetchWord 32 w⟩

/-! ### Opcodes 14 and 15 (40_fetch_execute.md R111) -/

theorem unknownOpcode_fails {s : State} (h : s.launch.unknownOpcodePolicy = .fail) :
    ∃ t, unknownOpcode s = .next t ∧ FailsOnly .unknownOpcode s t :=
  ⟨_, (unknownOpcode_next_iff _ _).2 (.inl ⟨h, rfl⟩), .failed s _⟩

theorem unknownOpcode_halts {s : State} (h : s.launch.unknownOpcodePolicy = .halt) :
    ∃ t, unknownOpcode s = .next t ∧ t.status = .halted ∧ KeepsRegsPcMemory s t ∧ SameStreams s t :=
  ⟨_, (unknownOpcode_next_iff _ _).2 (.inr ⟨h, rfl⟩), rfl,
    ⟨fun _ => rfl, rfl, SameMemory.of_seg rfl, ⟨rfl, rfl⟩, rfl⟩, ⟨rfl, rfl⟩⟩

/-- What an illegal opcode leaves: the pc is the fetch's, the status the policy's. -/
theorem unknownOpcode_pc_status {s t : State} (h : unknownOpcode s = .next t) :
    t.pc = s.pc ∧ (s.launch.unknownOpcodePolicy = .fail → t.status = .failed .unknownOpcode) ∧
      (s.launch.unknownOpcodePolicy = .halt → t.status = .halted) := by
  rcases (unknownOpcode_next_iff _ _).1 h with ⟨hPolicy, rfl⟩ | ⟨hPolicy, rfl⟩ <;> simp [hPolicy]

/-- Settles O34: both rows run the one meaning of an illegal opcode, under either policy. -/
theorem unknownOpcodeResult : Obligations.UnknownOpcodeResult :=
  ⟨fun _ h => congrArg Decoded.toInstr (decodeFormat_of_unknown 0 h),
    fun _ h => congrArg Decoded.toInstr (decodeFormat_of_unknown 1 h),
    fun _ => ⟨fun h => ⟨unknownOpcode_fails h, unknownOpcode_fails h⟩,
      fun h => ⟨unknownOpcode_halts h, unknownOpcode_halts h⟩⟩⟩

/-! ### How an instruction ends (40_fetch_execute.md R104, R107) -/

/-- The pc after an instruction that neither halts nor fails (40_fetch_execute.md R104). -/
def pcAfter (s : State) : Instr → Word
  | .loadProgram _ c => s.reg c
  | _ => s.pc

theorem pcAfter_of_ne_loadProgram {i : Instr} (h : ∀ b c, i ≠ .loadProgram b c) (s : State) :
    pcAfter s i = s.pc := by
  unfold pcAfter
  split
  · exact absurd rfl (h _ _)
  · rfl

/-- How an instruction ends: it goes on, it halts the engine, or it fails with no effect but the status.
The reason is never the range check's, which the fetch alone makes. -/
inductive ExecEnd (s : State) (i : Instr) : State → Prop where
  | goesOn {t : State} : t.status = s.status → t.pc = pcAfter s i → ExecEnd s i t
  | halts : i = .halt ∨ i = .unknown14 ∨ i = .unknown15 → ExecEnd s i { s with status := .halted }
  | fails {reason : FailReason} : reason ≠ .programCounterOutOfRange →
      ExecEnd s i { s with status := .failed reason }

namespace State

theorem memRead_error_ne {s : State} {id offset : Word} {reason : FailReason}
    (h : s.memRead id offset = .error reason) : reason ≠ .programCounterOutOfRange := by
  unfold memRead at h
  split at h
  · cases h; decide
  · split_ifs at h; cases h; decide

theorem memWrite_error_ne {s : State} {id offset v : Word} {reason : FailReason}
    (h : s.memWrite id offset v = .error reason) : reason ≠ .programCounterOutOfRange := by
  unfold memWrite at h
  split at h
  · cases h; decide
  · split_ifs at h; cases h; decide

theorem alloc_error_ne {s : State} {n : Word} {reason : FailReason} (h : s.alloc n = .error reason) :
    reason ≠ .programCounterOutOfRange := by
  rcases (alloc_error_iff _ _ _).1 h with ⟨-, rfl⟩ | ⟨-, -, rfl⟩ <;> decide

theorem unmap_error_ne {s : State} {id : Word} {reason : FailReason} (h : unmap s id = .error reason) :
    reason ≠ .programCounterOutOfRange := by
  rcases (unmap_error_iff _ _ _).1 h with ⟨-, rfl⟩ | ⟨-, -, rfl⟩ | ⟨-, -, -, rfl⟩ <;> decide

theorem loadSegment0_error_ne {s : State} {id : Word} {reason : FailReason}
    (h : loadSegment0 s id = .error reason) : reason ≠ .programCounterOutOfRange := by
  obtain ⟨-, hCopy⟩ := (loadSegment0_error_iff _ _ _).1 h
  rcases (replaceSeg0_error_iff _ _ _).1 hCopy with ⟨-, rfl⟩ | ⟨g, -, -, rfl⟩ <;> decide

theorem loadSegment0_status {s t : State} {id : Word} (h : loadSegment0 s id = .ok t) :
    t.status = s.status := by
  rcases (loadSegment0_ok_iff _ _ _).1 h with ⟨-, rfl⟩ | ⟨-, hCopy⟩
  · rfl
  · exact replaceSeg0_status hCopy

end State

/-- An illegal opcode halts the engine or fails, by the policy. -/
theorem execEnd_of_unknownOpcode {i : Instr} (hi : i = .unknown14 ∨ i = .unknown15) {s t : State}
    (h : unknownOpcode s = .next t) : ExecEnd s i t := by
  rcases (unknownOpcode_next_iff _ _).1 h with ⟨-, rfl⟩ | ⟨-, rfl⟩
  · exact .fails (by decide)
  · exact .halts (.inr hi)

/-- Every next state of an instruction is one of `ExecEnd`'s cases. -/
theorem exec_end {i : Instr} {s t : State} (h : exec i s = .next t) : ExecEnd s i t := by
  cases i with
  | add a b c | multiply a b c | nand a b c | loadImmediate a value | input c =>
    cases h
    exact .goesOn rfl rfl
  | conditionalMove a b c =>
    rcases (execConditionalMove_next_iff _ _ _ _ _).1 h with ⟨-, rfl⟩ | ⟨-, rfl⟩ <;> exact .goesOn rfl rfl
  | segmentLoad a b c =>
    rcases (execSegmentLoad_next_iff _ _ _ _ _).1 h with ⟨v, -, rfl⟩ | ⟨reason, hError, rfl⟩
    · exact .goesOn rfl rfl
    · exact .fails (State.memRead_error_ne hError)
  | segmentStore a b c =>
    rcases (execSegmentStore_next_iff _ _ _ _ _).1 h with hOk | ⟨reason, hError, rfl⟩
    · obtain ⟨-, hPc, -, -, hEngine⟩ := State.memWrite_frame hOk
      exact .goesOn hEngine.status hPc
    · exact .fails (State.memWrite_error_ne hError)
  | divide a b c =>
    rcases (execDivide_next_iff _ _ _ _ _).1 h with ⟨-, rfl⟩ | ⟨-, rfl⟩
    · exact .goesOn rfl rfl
    · exact .fails (by decide)
  | halt =>
    cases h
    exact .halts (.inl rfl)
  | mapSegment b c =>
    rcases (execMapSegment_next_iff _ _ _ _).1 h with ⟨id, u, hOk, rfl⟩ | ⟨reason, hError, rfl⟩
    · obtain ⟨-, hPc, hStatus, -⟩ := State.alloc_rest hOk
      exact .goesOn hStatus hPc
    · exact .fails (State.alloc_error_ne hError)
  | unmapSegment c =>
    rcases (execUnmapSegment_next_iff _ _ _).1 h with hOk | ⟨reason, hError, rfl⟩
    · obtain ⟨-, -, -, rfl⟩ := (State.unmap_ok_iff _ _ _).1 hOk
      exact .goesOn rfl rfl
    · exact .fails (State.unmap_error_ne hError)
  | output c =>
    rcases (execOutput_next_iff _ _ _).1 h with ⟨-, rfl⟩ | ⟨-, rfl⟩
    · exact .goesOn rfl rfl
    · exact .fails (by decide)
  | loadProgram b c =>
    rcases (execLoadProgram_next_iff _ _ _ _).1 h with ⟨u, hOk, rfl⟩ | ⟨reason, hError, rfl⟩
    · have hStatus : u.status = s.status := State.loadSegment0_status hOk
      exact .goesOn hStatus rfl
    · exact .fails (State.loadSegment0_error_ne hError)
  | unknown14 => exact execEnd_of_unknownOpcode (.inl rfl) h
  | unknown15 => exact execEnd_of_unknownOpcode (.inr rfl) h

namespace ExecEnd

/-- Only LoadProgram assigns the pc (40_fetch_execute.md R103). -/
theorem pc_of_ne_loadProgram {i : Instr} {s t : State} (h : ExecEnd s i t)
    (hi : ∀ b c, i ≠ .loadProgram b c) : t.pc = s.pc := by
  cases h with
  | goesOn _ hPc => exact hPc.trans (pcAfter_of_ne_loadProgram hi s)
  | halts _ => rfl
  | fails _ => rfl

/-- An instruction of a row that cannot halt leaves the engine running at `pcAfter`, or fails where the
fetch left the pc. -/
theorem goesOn_or_fails {i : Instr} {s t : State} (h : ExecEnd s i t)
    (hi : ¬ (i = .halt ∨ i = .unknown14 ∨ i = .unknown15)) :
    (t.status = s.status ∧ t.pc = pcAfter s i) ∨ ∃ reason, t.status = .failed reason ∧ t.pc = s.pc := by
  cases h with
  | goesOn hStatus hPc => exact .inl ⟨hStatus, hPc⟩
  | halts hHalts => exact absurd hHalts hi
  | fails _ => exact .inr ⟨_, rfl, rfl⟩

/-- A failure has no effect beside the status (40_fetch_execute.md R107). -/
theorem eq_of_failed {i : Instr} {s t : State} {reason : FailReason} (h : ExecEnd s i t)
    (hRunning : s.status = .running) (hFailed : t.status = .failed reason) :
    reason ≠ .programCounterOutOfRange ∧ t = { s with status := .failed reason } := by
  cases h with
  | goesOn hStatus _ => simp [hStatus, hRunning] at hFailed
  | halts _ => cases hFailed
  | fails hReason => cases hFailed; exact ⟨hReason, rfl⟩

end ExecEnd

/-- Settles O7: the fetch reads the word and advances the pc, and only LoadProgram's end assigns it. -/
theorem stepRunsTheFetchedInstruction : Obligations.StepRunsTheFetchedInstruction :=
  ⟨fun _ _ hRunning hIn hRead =>
      ⟨step_of_memRead hRunning hRead, fun hMemory => State.toNat_pc_add_one hMemory hIn⟩,
    fun _ _ _ hi h => (exec_end h).pc_of_ne_loadProgram hi⟩

/-- Settles O11: a failed range check and a failed instruction both change the status alone, the latter
in the state the fetch left. -/
theorem failingStepHasNoPartialEffect : Obligations.FailingStepHasNoPartialEffect := by
  intro s t reason hStep hFailed
  obtain ⟨hRunning, ⟨-, rfl⟩ | ⟨w, -, hExec⟩⟩ := step_cases hStep
  · cases hFailed
    exact ⟨fun _ => rfl, SameMemory.of_seg rfl, ⟨rfl, rfl⟩, ⟨rfl, rfl⟩, rfl, fun _ => rfl,
      fun hNe => absurd rfl hNe⟩
  · obtain ⟨hReason, rfl⟩ := (exec_end hExec).eq_of_failed hRunning hFailed
    exact ⟨fun _ => rfl, SameMemory.of_seg rfl, ⟨rfl, rfl⟩, ⟨rfl, rfl⟩, rfl,
      fun hEq => absurd hEq hReason, fun _ => rfl⟩

/-! ### A running engine always steps (40_fetch_execute.md R100, R104) -/

theorem complete_total (s : State) (r : Except FailReason State) : ∃ t, complete s r = .next t := by
  cases r <;> exact ⟨_, rfl⟩

theorem unknownOpcode_total (s : State) : ∃ t, unknownOpcode s = .next t := by
  cases h : s.launch.unknownOpcodePolicy with
  | fail => exact ⟨_, (unknownOpcode_next_iff _ _).2 (.inl ⟨h, rfl⟩)⟩
  | halt => exact ⟨_, (unknownOpcode_next_iff _ _).2 (.inr ⟨h, rfl⟩)⟩

theorem exec_total (i : Instr) (s : State) : ∃ t, exec i s = .next t := by
  cases i
  case conditionalMove | add | multiply | nand | halt | input | loadImmediate => exact ⟨_, rfl⟩
  case segmentLoad | segmentStore | divide | mapSegment | unmapSegment | output | loadProgram =>
    exact complete_total s _
  case unknown14 | unknown15 => exact unknownOpcode_total s

/-- Settles O10, by the range check and then by how the fetched instruction's row ends. -/
theorem programCounterTransitions : Obligations.ProgramCounterTransitions := by
  intro s hRunning
  rcases Nat.lt_or_ge s.pc.toNat (s.segLen 0#32) with hIn | hOut
  · obtain ⟨w, hFetch⟩ := Option.ne_none_iff_exists'.1 (mt s.fetch?_eq_none_iff.1 (Nat.not_le.2 hIn))
    have hRead := (s.fetch?_eq_some_iff_memRead w).1 hFetch
    obtain ⟨t, hExec⟩ := exec_total (decode w) s.advancePc
    have hEnd := exec_end hExec
    refine ⟨t, (step_of_memRead hRunning hRead).trans hExec, fun hOut => absurd hIn (Nat.not_lt.2 hOut),
      fun w' hRead' => ?_⟩
    obtain rfl : w = w' := Except.ok.inj (hRead.symm.trans hRead')
    refine ⟨fun b c hDecode => ?_, fun hDecode => ?_, fun hDecode => ?_, fun hHalt h14 h15 hLoad => ?_⟩
    · rw [hDecode] at hEnd
      exact (hEnd.goesOn_or_fails (by simp)).imp_left fun ⟨hStatus, hPc⟩ => ⟨hStatus.trans hRunning, hPc⟩
    · rw [hDecode] at hExec
      cases hExec
      exact ⟨rfl, rfl⟩
    · have hUnknown : unknownOpcode s.advancePc = .next t := by
        rcases hDecode with hDecode | hDecode <;> rwa [hDecode] at hExec
      exact unknownOpcode_pc_status hUnknown
    · refine ⟨hEnd.pc_of_ne_loadProgram hLoad, ?_⟩
      exact (hEnd.goesOn_or_fails (by simp [hHalt, h14, h15])).imp (fun ⟨hStatus, _⟩ => hStatus.trans hRunning)
        fun ⟨reason, hFailed, _⟩ => ⟨reason, hFailed⟩
  · refine ⟨_, step_of_segLen_le hRunning hOut, fun _ => ⟨rfl, rfl⟩, fun w hRead => ?_⟩
    simp [s.fetch?_eq_none_iff.2 hOut, ← State.fetch?_eq_some_iff_memRead] at hRead

/-! ### The host and the launch parameters (40_fetch_execute.md R110; 00_scope.md R6) -/

/-- No storage effect changes a launch parameter. -/
theorem ExecEffect.launch {i : Instr} {s t : State} (h : ExecEffect s i t) : t.launch = s.launch := by
  cases h with
  | noStorage hWrites => exact hWrites.launch
  | store hOk =>
    obtain ⟨-, -, hLaunch⟩ := State.memWrite_rest hOk
    exact hLaunch
  | map hOk =>
    obtain ⟨-, -, -, -, -, hLaunch⟩ := State.alloc_rest hOk
    exact hLaunch
  | unmap hOk =>
    obtain ⟨-, -, -, rfl⟩ := (State.unmap_ok_iff _ _ _).1 hOk
    rfl
  | copy _ hOk =>
    obtain ⟨-, -, hLaunch⟩ := State.replaceSeg0_rest hOk
    exact hLaunch

theorem step_launch {s t : State} (h : step s = .next t) : t.launch = s.launch := by
  rcases step_effect_cases h with hSame | ⟨i, hEffect⟩
  · exact hSame.launch
  · exact hEffect.launch

/-! #### No operation but the read of the next answer looks at `INPUT` -/

namespace State

@[simp] theorem withInput_reg (s : State) (input : Config.InputStream) (i : Reg) :
    (s.withInput input).reg i = s.reg i := rfl
@[simp] theorem withInput_queue (s : State) (input : Config.InputStream) :
    (s.withInput input).queue = s.queue := rfl
@[simp] theorem withInput_storeSize (s : State) (input : Config.InputStream) :
    (s.withInput input).storeSize = s.storeSize := rfl
@[simp] theorem withInput_segment? (s : State) (input : Config.InputStream) (id : Word) :
    (s.withInput input).segment? id = s.segment? id := rfl
@[simp] theorem withInput_segLen (s : State) (input : Config.InputStream) (id : Word) :
    (s.withInput input).segLen id = s.segLen id := rfl
@[simp] theorem withInput_released (s : State) (input : Config.InputStream) (id : Word) :
    (s.withInput input).released id = s.released id := rfl
@[simp] theorem withInput_used (s : State) (input : Config.InputStream) :
    (s.withInput input).used = s.used := rfl
@[simp] theorem withInput_idsExhausted (s : State) (input : Config.InputStream) :
    (s.withInput input).idsExhausted = s.idsExhausted := rfl
@[simp] theorem withInput_exceedsCapacity (s : State) (input : Config.InputStream) (words : Nat) :
    (s.withInput input).exceedsCapacity words = s.exceedsCapacity words := rfl

theorem withInput_memWrite (s : State) (input : Config.InputStream) (id offset v : Word) :
    (s.withInput input).memWrite id offset v = (s.memWrite id offset v).map (·.withInput input) := by
  unfold memWrite
  rw [withInput_segment?]
  cases s.segment? id with
  | none => rfl
  | some g => dsimp only; split_ifs <;> rfl

theorem withInput_takeId (s : State) (input : Config.InputStream) :
    (s.withInput input).takeId = (s.takeId.1, s.takeId.2.withInput input) := by
  unfold takeId
  rw [withInput_queue]
  cases s.queue <;> rfl

theorem withInput_alloc (s : State) (input : Config.InputStream) (n : Word) :
    (s.withInput input).alloc n = (s.alloc n).map fun r => (r.1, r.2.withInput input) := by
  unfold alloc
  rw [withInput_takeId, withInput_idsExhausted, withInput_exceedsCapacity, withInput_used]
  split_ifs <;> rfl

theorem withInput_unmap (s : State) (input : Config.InputStream) (id : Word) :
    unmap (s.withInput input) id = (unmap s id).map (·.withInput input) := by
  unfold unmap
  rw [withInput_released, withInput_storeSize]
  split_ifs <;> rfl

theorem withInput_replaceSeg0 (s : State) (input : Config.InputStream) (id : Word) :
    (s.withInput input).replaceSeg0 id = (s.replaceSeg0 id).map (·.withInput input) := by
  unfold replaceSeg0
  rw [withInput_segment?, withInput_used, withInput_segLen]
  cases s.segment? id with
  | none => rfl
  | some g => dsimp only; rw [withInput_exceedsCapacity]; split_ifs <;> rfl

theorem withInput_loadSegment0 (s : State) (input : Config.InputStream) (id : Word) :
    loadSegment0 (s.withInput input) id = (loadSegment0 s id).map (·.withInput input) := by
  unfold loadSegment0
  split_ifs
  · rfl
  · exact s.withInput_replaceSeg0 input id

end State

/-- The end of a handler does not look at `INPUT`. -/
theorem complete_withInput {s t : State} {r r' : Except FailReason State} {input : Config.InputStream}
    (hr : r' = r.map (·.withInput input)) (h : complete s r = .next t) :
    complete (s.withInput input) r' = .next (t.withInput input) := by
  subst hr
  cases r <;> cases h <;> rfl

theorem unknownOpcode_withInput {s t : State} (input : Config.InputStream)
    (h : unknownOpcode s = .next t) :
    unknownOpcode (s.withInput input) = .next (t.withInput input) := by
  rcases (unknownOpcode_next_iff _ _).1 h with ⟨hPolicy, rfl⟩ | ⟨hPolicy, rfl⟩
  · exact (unknownOpcode_next_iff _ _).2 (.inl ⟨hPolicy, rfl⟩)
  · exact (unknownOpcode_next_iff _ _).2 (.inr ⟨hPolicy, rfl⟩)

/-- An instruction does the same with another `INPUT` whose next answer is the same. -/
theorem exec_withInput {i : Instr} {s t : State} {input : Config.InputStream}
    (hAnswer : inputAt input s.inpos = s.nextAnswer) (h : exec i s = .next t) :
    exec i (s.withInput input) = .next (t.withInput input) := by
  cases i with
  | conditionalMove a b c =>
    rcases (execConditionalMove_next_iff _ _ _ _ _).1 h with ⟨hNonzero, rfl⟩ | ⟨hZero, rfl⟩
    · exact (execConditionalMove_next_iff _ _ _ _ _).2 (.inl ⟨hNonzero, rfl⟩)
    · exact (execConditionalMove_next_iff _ _ _ _ _).2 (.inr ⟨hZero, rfl⟩)
  | add a b c | multiply a b c | nand a b c | loadImmediate a value | halt => cases h; rfl
  | segmentLoad a b c =>
    refine complete_withInput ?_ h
    change (s.memRead (s.reg b) (s.reg c)).map _ = _
    cases s.memRead (s.reg b) (s.reg c) <;> rfl
  | segmentStore a b c => exact complete_withInput (s.withInput_memWrite input _ _ _) h
  | divide a b c =>
    refine complete_withInput ?_ h
    rw [State.withInput_reg, State.withInput_reg]
    cases divWord (s.reg b) (s.reg c) <;> rfl
  | mapSegment b c =>
    refine complete_withInput ?_ h
    rw [State.withInput_alloc, State.withInput_reg]
    cases s.alloc (s.reg c) <;> rfl
  | unmapSegment c => exact complete_withInput (s.withInput_unmap input _) h
  | output c =>
    refine complete_withInput ?_ h
    rw [State.withInput_reg]
    split_ifs <;> rfl
  | input c =>
    obtain rfl := (execInput_next_iff _ _ _).1 h
    rw [execInput_next_iff, ← hAnswer]
    rfl
  | loadProgram b c =>
    refine complete_withInput ?_ h
    rw [State.withInput_loadSegment0, State.withInput_reg, State.withInput_reg]
    cases loadSegment0 s (s.reg b) <;> rfl
  | unknown14 => exact unknownOpcode_withInput input h
  | unknown15 => exact unknownOpcode_withInput input h

/-- Settles O13: the fetch does not look at `INPUT`, and the instruction only at its next answer. -/
theorem stepDependsOnTheNextAnswerOnly : Obligations.StepDependsOnTheNextAnswerOnly := by
  intro s t input hStep
  refine ⟨step_launch hStep, fun hAnswer => ?_⟩
  obtain ⟨hRunning, ⟨hFetch, rfl⟩ | ⟨w, hFetch, hExec⟩⟩ := step_cases hStep
  · exact step_of_segLen_le (s := s.withInput input) hRunning (s.fetch?_eq_none_iff.1 hFetch)
  · have hRead : (s.withInput input).memRead 0#32 s.pc = .ok w :=
      (s.fetch?_eq_some_iff_memRead w).1 hFetch
    have hSame : exec (decode w) (s.advancePc.withInput input) = .next (t.withInput input) :=
      exec_withInput hAnswer hExec
    exact (step_of_memRead (s := s.withInput input) hRunning hRead).trans hSame

end Sys2Proof.Machine

/-! ## The register operations: the value written and the frame (41_register_ops.md) -/

namespace Sys2Proof.Machine

/-- Where no register is written the frame of a register write holds too. -/
theorem WritesOnlyReg.refl (a : Reg) (s : State) : WritesOnlyReg a s s where
  regs _ _ := rfl
  pc := rfl
  memory := SameMemory.of_seg rfl
  allocator := ⟨rfl, rfl⟩
  streams := ⟨rfl, rfl⟩
  engine := ⟨rfl, rfl⟩

/-- Settles O16, by whether the condition register is 0. -/
theorem conditionalMoveResult : Obligations.ConditionalMoveResult := by
  intro a b c s
  refine ⟨decode_encode3 0 a b c, ?_⟩
  by_cases hZero : s.reg c = 0#32
  · exact ⟨s, (execConditionalMove_next_iff _ _ _ _ _).2 (.inr ⟨hZero, rfl⟩),
      fun hNonzero => absurd hZero hNonzero, fun _ => rfl, .refl a s⟩
  · exact ⟨_, (execConditionalMove_next_iff _ _ _ _ _).2 (.inl ⟨hZero, rfl⟩),
      fun _ => s.reg_setReg_self a _, fun h => absurd h hZero, .setReg s a _⟩

/-- Settles O17: the sum of two Words is the sum modulo 2^32. -/
theorem addResult : Obligations.AddResult := fun a b c s =>
  ⟨decode_encode3 3 a b c, _, (execAdd_next_iff _ _ _ _ _).2 rfl,
    by rw [State.reg_setReg_self, BitVec.toNat_add], .setReg s a _⟩

/-- Settles O18: the product of two Words is the product modulo 2^32. -/
theorem multiplyResult : Obligations.MultiplyResult := fun a b c s =>
  ⟨decode_encode3 4 a b c, _, (execMultiply_next_iff _ _ _ _ _).2 rfl,
    by rw [State.reg_setReg_self, BitVec.toNat_mul], .setReg s a _⟩

/-- Settles O19, by whether the divisor is 0. -/
theorem divideResult : Obligations.DivideResult := by
  intro a b c s
  refine ⟨decode_encode3 5 a b c, fun hNonzero => ?_, fun hZero => ?_⟩
  · exact ⟨_, (execDivide_next_iff _ _ _ _ _).2 (.inl ⟨hNonzero, rfl⟩),
      by rw [State.reg_setReg_self, BitVec.toNat_udiv], .setReg s a _⟩
  · exact ⟨_, (execDivide_next_iff _ _ _ _ _).2 (.inr ⟨hZero, rfl⟩), .failed s _⟩

/-- Settles O20: below bit 32 the complement of the conjunction is taken bit by bit. -/
theorem nandResult : Obligations.NandResult := by
  intro a b c s
  refine ⟨decode_encode3 6 a b c, _, (execNand_next_iff _ _ _ _ _).2 rfl, fun k hk => ?_, .setReg s a _⟩
  rw [State.reg_setReg_self, BitVec.getLsbD_not, BitVec.getLsbD_and, decide_eq_true hk, Bool.true_and]

/-- Settles O21: the immediate is below 2^25, so the Word that holds it has that value. -/
theorem loadImmediateResult : Obligations.LoadImmediateResult := by
  intro a v s
  have hValue : (BitVec.ofNat 32 (v % 2 ^ 25) : Word).toNat = v % 2 ^ 25 :=
    toNat_ofNat_of_lt ((Nat.mod_lt v (by decide)).trans (by decide))
  exact ⟨congrArg Decoded.toInstr (decodeFormat_encodeLI a v), _, (execLoadImmediate_next_iff _ _ _ _).2 rfl,
    by rw [State.reg_setReg_self, hValue], .setReg s a _⟩

end Sys2Proof.Machine

/-! ## The segment operations: allocation, release and the checks before them (42_segment_ops.md) -/

namespace Sys2Proof.Machine

/-- A handler whose operation fails completes with the frame of a failure (40_fetch_execute.md R107). -/
theorem complete_fails {s : State} {r : Except FailReason State} {reason : FailReason}
    (h : r = .error reason) : ∃ t, complete s r = .next t ∧ FailsOnly reason s t :=
  ⟨_, (complete_eq_next_iff _ _ _).2 (.inr ⟨reason, h, rfl⟩), .failed s reason⟩

theorem SameMemoryOutside.of_segment? {s t : State} {id : Word}
    (h : ∀ j : Word, j ≠ id → t.segment? j = s.segment? j) : SameMemoryOutside id s t where
  words j k hj := State.memRead_congr (h j hj) k
  lengths j hj := State.segLen_congr (h j hj)
  active j hj := State.active_congr (h j hj)

/-! ### `MemRead`: its outcomes by the checks (20_memory.md R51) -/

namespace State

theorem memRead_of_active {s : State} {id offset : Word} (h : s.active id = true)
    (hIn : offset.toNat < s.segLen id) : ∃ v, s.memRead id offset = .ok v := by
  obtain ⟨g, hg⟩ := (active_iff _ _).1 h
  exact ⟨_, memRead_of_segment? hg (segLen_of_segment? hg ▸ hIn)⟩

theorem memRead_of_inactive {s : State} {id : Word} (h : s.active id = false) (offset : Word) :
    s.memRead id offset = .error .invalidSegmentAccess := by
  simp [memRead, (active_eq_false_iff _ _).1 h]

theorem memRead_of_segLen_le {s : State} {id offset : Word} (h : s.active id = true)
    (hOut : s.segLen id ≤ offset.toNat) : s.memRead id offset = .error .outOfBounds := by
  obtain ⟨g, hg⟩ := (active_iff _ _).1 h
  rw [segLen_of_segment? hg] at hOut
  simp [memRead, hg, hOut]

end State

theorem execSegmentLoad_fails {a b c : Reg} {s : State} {reason : FailReason}
    (h : s.memRead (s.reg b) (s.reg c) = .error reason) :
    ∃ t, exec (.segmentLoad a b c) s = .next t ∧ FailsOnly reason s t :=
  complete_fails (congrArg (Except.map _) h)

/-- Settles O22, by the three outcomes of the read. -/
theorem segmentLoadResult : Obligations.SegmentLoadResult := by
  intro a b c s
  refine ⟨decode_encode3 1 a b c, fun hActive hIn => ?_, fun hInactive => ?_, fun hActive hOut => ?_⟩
  · obtain ⟨v, hRead⟩ := State.memRead_of_active hActive hIn
    exact ⟨s.setReg a v, (execSegmentLoad_next_iff _ _ _ _ _).2 (.inl ⟨v, hRead, rfl⟩),
      by rw [State.reg_setReg_self, hRead], .setReg s a v⟩
  · exact execSegmentLoad_fails (State.memRead_of_inactive hInactive _)
  · exact execSegmentLoad_fails (State.memRead_of_segLen_le hActive hOut)

/-! ### `Alloc`: the identifier it takes, and when it fails (20_memory.md R60) -/

namespace State

theorem idsExhausted_eq_false_iff (s : State) :
    s.idsExhausted = false ↔ s.queue ≠ [] ∨ s.storeSize ≠ s.launch.maxSegmentIds := by
  rw [← Bool.not_eq_true, idsExhausted_eq_true_iff, not_and_or]

/-- While an identifier waits and the words fit, an allocation takes the oldest. -/
theorem alloc_reuses {s : State} {id : Word} {rest : List Word} (hQueue : s.queue = id :: rest) {n : Word}
    (hFits : s.fitsCapacity (s.used + n.toNat)) :
    ∃ t, s.alloc n = .ok (id, t) ∧ t.queue = rest ∧ t.storeSize = s.storeSize :=
  ⟨_, (alloc_ok_iff _ _ _ _).2 ⟨(idsExhausted_eq_false_iff s).2 (.inl (by simp [hQueue])),
      (exceedsCapacity_eq_false_iff _ _).2 hFits, by rw [takeId_of_queue hQueue], rfl⟩,
    by simp [takeId_of_queue hQueue], by simp [takeId_of_queue hQueue]⟩

/-- With no identifier waiting and some left, an allocation of words that fit takes `store_size`. -/
theorem alloc_issues {s : State} (hEmpty : s.queue = []) (hBelow : s.storeSize ≠ s.launch.maxSegmentIds)
    {n : Word} (hFits : s.fitsCapacity (s.used + n.toNat)) :
    ∃ t, s.alloc n = .ok (BitVec.ofNat 32 s.storeSize, t) ∧ t.queue = [] ∧
      t.storeSize = s.storeSize + 1 :=
  ⟨_, (alloc_ok_iff _ _ _ _).2 ⟨(idsExhausted_eq_false_iff s).2 (.inr hBelow),
      (exceedsCapacity_eq_false_iff _ _).2 hFits, by rw [takeId_of_empty hEmpty], rfl⟩,
    by simp [takeId_of_empty hEmpty, hEmpty], by simp [takeId_of_empty hEmpty]⟩

theorem alloc_of_idsExhausted {s : State} (hEmpty : s.queue = [])
    (hFull : s.storeSize = s.launch.maxSegmentIds) (n : Word) :
    s.alloc n = .error .segmentSpaceExhausted :=
  (alloc_error_iff _ _ _).2 (.inl ⟨(idsExhausted_eq_true_iff s).2 ⟨hEmpty, hFull⟩, rfl⟩)

theorem alloc_of_not_fits {s : State} (hIds : s.queue ≠ [] ∨ s.storeSize ≠ s.launch.maxSegmentIds)
    {n : Word} (hOver : ¬ s.fitsCapacity (s.used + n.toNat)) : s.alloc n = .error .storageExhausted := by
  rw [← exceedsCapacity_eq_false_iff, Bool.not_eq_false] at hOver
  exact (alloc_error_iff _ _ _).2 (.inr ⟨(idsExhausted_eq_false_iff s).2 hIds, hOver, rfl⟩)

/-- Identifier 0 is always active, so no allocation takes it. -/
theorem Inv.ne_zero_of_inactive {s : State} (hs : s.Inv) {id : Word} (h : s.active id = false) :
    id ≠ 0#32 := by
  rintro rfl
  simp [hs.segment0] at h

/-- What MapSegment's write of the identifier leaves of an allocation, whichever identifier it took. -/
theorem alloc_setReg_effect {s u : State} {n id : Word} (h : s.alloc n = .ok (id, u)) (b : Reg) :
    (u.setReg b id).active id = true ∧ (u.setReg b id).segLen id = n.toNat ∧
      (∀ k : Word, k.toNat < n.toNat → (u.setReg b id).memRead id k = .ok 0#32) ∧
      SameMemoryOutside id s (u.setReg b id) ∧ SameRegsBut b s (u.setReg b id) ∧
      (u.setReg b id).pc = s.pc ∧ SameStreams s (u.setReg b id) ∧ SameEngine s (u.setReg b id) ∧
      (s.Inv → id ≠ 0#32 ∧ s.active id = false) := by
  obtain ⟨hRegs, hPc, hStatus, hOut, hInpos, hLaunch⟩ := alloc_rest h
  have hOthers (j : Word) (hj : j ≠ id) : (u.setReg b id).segment? j = s.segment? j := by
    rw [segment?_setReg, segment?_alloc h, if_neg hj]
  have hOtherRegs (r : Reg) (hr : r ≠ b) : (u.setReg b id).reg r = s.reg r :=
    (reg_setReg_ne u hr id).trans (reg_congr hRegs r)
  have hNew (hs : s.Inv) : id ≠ 0#32 ∧ s.active id = false :=
    have hInactive := hs.inactive_of_alloc h
    ⟨hs.ne_zero_of_inactive hInactive, hInactive⟩
  exact ⟨(active_alloc_iff h id).2 (.inl rfl), (segLen_setReg _ _ _ _).trans (segLen_alloc_self h),
    fun _ hk => (memRead_setReg _ _ _ _ _).trans (memRead_alloc_self h hk), .of_segment? hOthers,
    hOtherRegs, hPc, ⟨hOut, hInpos⟩, ⟨hStatus, hLaunch⟩, hNew⟩

end State

theorem execMapSegment_of_alloc {b c : Reg} {s u : State} {id : Word}
    (h : s.alloc (s.reg c) = .ok (id, u)) : exec (.mapSegment b c) s = .next (u.setReg b id) :=
  (execMapSegment_next_iff _ _ _ _).2 (.inl ⟨id, u, h, rfl⟩)

theorem execMapSegment_fails {b c : Reg} {s : State} {reason : FailReason}
    (h : s.alloc (s.reg c) = .error reason) :
    ∃ t, exec (.mapSegment b c) s = .next t ∧ FailsOnly reason s t :=
  complete_fails (congrArg (Except.map _) h)

/-- Settles O24, by the two sources of an identifier and the two limits; the rest of the effect is the
same for both sources. -/
theorem mapSegmentResult : Obligations.MapSegmentResult := by
  intro b c s
  refine ⟨fun a => decode_encode3 8 a b c, fun id rest hQueue hFits => ?_,
    fun id hEmpty hBelow hId hFits => ?_, fun hEmpty hFull => ?_, fun hIds hOver => ?_⟩
  · obtain ⟨u, hAlloc, hRest, hSize⟩ := State.alloc_reuses hQueue hFits
    exact ⟨_, execMapSegment_of_alloc hAlloc, State.reg_setReg_self _ _ _, hRest, hSize,
      State.alloc_setReg_effect hAlloc b⟩
  · subst hId
    obtain ⟨u, hAlloc, hRest, hSize⟩ := State.alloc_issues hEmpty hBelow hFits
    obtain ⟨hActive, hLen, hZeros, hMemory, hRegs, hPc, hStreams, hEngine, hNew⟩ :=
      State.alloc_setReg_effect hAlloc b
    exact ⟨_, execMapSegment_of_alloc hAlloc, State.reg_setReg_self _ _ _, hRest, hSize, hActive, hLen,
      hZeros, hMemory, hRegs, hPc, hStreams, hEngine, fun hs => ⟨hs.toNat_storeSize hBelow, hNew hs⟩⟩
  · exact execMapSegment_fails (State.alloc_of_idsExhausted hEmpty hFull _)
  · exact execMapSegment_fails (State.alloc_of_not_fits hIds hOver)

/-! ### UnmapSegment: the release and the checks before it (42_segment_ops.md R153; 20_memory.md R61) -/

namespace State

@[simp] theorem active_release_self (s : State) (id : Word) : (s.release id).active id = false := by
  simp [active, segment?_release]

theorem released_release_self {s : State} {id : Word} (h : id.toNat < s.storeSize) :
    (s.release id).released id = true :=
  (released_eq_true_iff _ _).2 ⟨h, active_release_self s id, by simp⟩

theorem sameMemoryOutside_release (s : State) (id : Word) : SameMemoryOutside id s (s.release id) :=
  .of_segment? fun j hj => by rw [segment?_release, if_neg hj]

theorem unmap_zero (s : State) : unmap s 0#32 = .error .invalidSegmentAccess :=
  (unmap_error_iff _ _ _).2 (.inl ⟨rfl, rfl⟩)

theorem unmap_of_released {s : State} {id : Word} (hNonzero : id ≠ 0#32) (h : s.released id = true) :
    unmap s id = .error .doubleUnmap :=
  (unmap_error_iff _ _ _).2 (.inr (.inl ⟨hNonzero, h, rfl⟩))

/-- An identifier that was never issued is not released either. -/
theorem unmap_of_storeSize_le {s : State} {id : Word} (hNonzero : id ≠ 0#32) (h : s.storeSize ≤ id.toNat) :
    unmap s id = .error .invalidSegmentAccess := by
  have hNotReleased : s.released id = false := by simp [released, Nat.not_lt.2 h]
  exact (unmap_error_iff _ _ _).2 (.inr (.inr ⟨hNonzero, hNotReleased, h, rfl⟩))

end State

theorem execUnmapSegment_fails {c : Reg} {s : State} {reason : FailReason}
    (h : unmap s (s.reg c) = .error reason) :
    ∃ t, exec (.unmapSegment c) s = .next t ∧ FailsOnly reason s t :=
  complete_fails h

/-- Settles O25, by the release and the three checks before it. -/
theorem unmapSegmentResult : Obligations.UnmapSegmentResult := by
  intro c s
  refine ⟨fun a b => decode_encode3 9 a b c, fun hNonzero hActive hIssued => ?_, fun hZero => ?_,
    fun hNonzero hReleased => ?_, fun hNonzero hBeyond => ?_⟩
  · exact ⟨s.release (s.reg c),
      (execUnmapSegment_next_iff _ _ _).2 (.inl (State.unmap_of_active hNonzero hActive hIssued)),
      s.active_release_self _, rfl, rfl, s.sameMemoryOutside_release _, fun _ => rfl, rfl, ⟨rfl, rfl⟩,
      ⟨rfl, rfl⟩, State.released_release_self hIssued⟩
  · exact execUnmapSegment_fails (hZero ▸ s.unmap_zero)
  · exact execUnmapSegment_fails (State.unmap_of_released hNonzero hReleased)
  · exact execUnmapSegment_fails (State.unmap_of_storeSize_le hNonzero hBeyond)

/-! ### A released identifier (42_segment_ops.md R155) -/

theorem State.loadSegment0_of_inactive {s : State} {id : Word} (hNonzero : id ≠ 0#32)
    (h : s.active id = false) : loadSegment0 s id = .error .invalidSegmentAccess :=
  (loadSegment0_error_iff _ _ _).2
    ⟨hNonzero, (replaceSeg0_error_iff _ _ _).2 (.inl ⟨(active_eq_false_iff _ _).1 h, rfl⟩)⟩

theorem execLoadProgram_fails {b c : Reg} {s : State} {reason : FailReason}
    (h : loadSegment0 s (s.reg b) = .error reason) :
    ∃ t, exec (.loadProgram b c) s = .next t ∧ FailsOnly reason s t :=
  complete_fails (congrArg (Except.map _) h)

/-- Settles O26: a released identifier is inactive, and under the invariant it is not 0. -/
theorem releasedIdentifierIsFatalToUse : Obligations.ReleasedIdentifierIsFatalToUse := by
  intro s id a b c hs hReleased
  obtain ⟨-, hInactive, -⟩ := (State.released_eq_true_iff s id).1 hReleased
  have hNonzero : id ≠ 0#32 := hs.ne_zero_of_inactive hInactive
  refine ⟨?_, ?_, ?_, ?_⟩ <;> rintro rfl
  · exact execSegmentLoad_fails (State.memRead_of_inactive hInactive _)
  · exact execSegmentStore_fails (State.memWrite_of_inactive hInactive _ _)
  · exact execLoadProgram_fails (State.loadSegment0_of_inactive hNonzero hInactive)
  · exact execUnmapSegment_fails (State.unmap_of_released hNonzero hReleased)

/-! ### The order of reuse (42_segment_ops.md R154) -/

namespace State

theorem fitsCapacity_unbounded {s : State} (h : s.launch.storeCapacityWords = none) (n : Nat) :
    s.fitsCapacity n :=
  (exceedsCapacity_eq_false_iff _ _).1 (exceedsCapacity_unbounded h n)

/-- Released identifiers queue up behind those that wait, in the order of their release. -/
theorem releaseAll_rest (s : State) (ids : List Word) :
    (s.releaseAll ids).queue = s.queue ++ ids ∧ (s.releaseAll ids).storeSize = s.storeSize ∧
      (s.releaseAll ids).launch = s.launch := by
  induction ids generalizing s with
  | nil => simp [releaseAll]
  | cons id ids ih =>
    obtain ⟨hQueue, hSize, hLaunch⟩ := ih (s.release id)
    exact ⟨by simp [releaseAll, hQueue], hSize, hLaunch⟩

theorem allocAll_cons {s t u : State} {n id : Word} {ns ids : List Word} (h : s.alloc n = .ok (id, t))
    (hRest : t.allocAll ns = .ok (ids, u)) : s.allocAll (n :: ns) = .ok (id :: ids, u) := by
  simp [allocAll, h, hRest]

/-- With unbounded storage, as many allocations as identifiers wait return exactly these, in order. -/
theorem allocAll_of_queue {queue lengths : List Word} (hLength : lengths.length = queue.length) {s : State}
    (hQueue : s.queue = queue) (hUnbounded : s.launch.storeCapacityWords = none) :
    ∃ t, s.allocAll lengths = .ok (queue, t) ∧ t.queue = [] ∧ t.storeSize = s.storeSize ∧
      t.launch = s.launch := by
  induction lengths generalizing queue s with
  | nil =>
    obtain rfl := List.length_eq_zero_iff.1 hLength.symm
    exact ⟨s, rfl, hQueue, rfl, rfl⟩
  | cons n ns ih =>
    obtain ⟨id, rest, rfl⟩ := List.exists_cons_of_length_eq_add_one hLength.symm
    obtain ⟨t, hAlloc, hRest, hSize⟩ := alloc_reuses hQueue (fitsCapacity_unbounded hUnbounded _)
    obtain ⟨-, -, -, -, -, hLaunch⟩ := alloc_rest hAlloc
    obtain ⟨u, hAll, hEmpty, hSizeAll, hLaunchAll⟩ :=
      ih (Nat.succ.inj hLength) hRest (hLaunch ▸ hUnbounded)
    exact ⟨u, allocAll_cons hAlloc hAll, hEmpty, hSizeAll.trans hSize, hLaunchAll.trans hLaunch⟩

end State

/-- Settles O27: the releases extend the queue at its tail and the allocations empty it from its head. -/
theorem identifiersAreReusedInFifoOrder : Obligations.IdentifiersAreReusedInFifoOrder := by
  intro s ids lengths n hUnbounded hLength
  obtain ⟨hQueue, hSize, hLaunch⟩ := s.releaseAll_rest ids
  obtain ⟨t, hAll, hEmpty, hSizeAll, hLaunchAll⟩ :=
    State.allocAll_of_queue (hLength.trans List.length_append.symm) hQueue (hLaunch ▸ hUnbounded)
  have hSame : t.storeSize = s.storeSize := hSizeAll.trans hSize
  have hSameLaunch : t.launch = s.launch := hLaunchAll.trans hLaunch
  refine ⟨t, hAll, hEmpty, hSame, fun hBelow => ?_⟩
  obtain ⟨u, hAlloc, -, hNext⟩ := State.alloc_issues (n := n) hEmpty (by rwa [hSame, hSameLaunch])
    (State.fitsCapacity_unbounded (hSameLaunch ▸ hUnbounded) _)
  exact ⟨u, hSame ▸ hAlloc, hSame ▸ hNext⟩

end Sys2Proof.Machine

/-! ## The control operations: Halt, and LoadProgram's copy and jump (43_control.md) -/

namespace Sys2Proof.Machine

/-! ### Halt (43_control.md R180) -/

/-- Settles O32: Halt changes the status alone, and `halted` has exit status 0 and no step. -/
theorem haltResult : Obligations.HaltResult :=
  ⟨fun _ h => congrArg Decoded.toInstr (decodeFormat_of_threeRegister 7 h), fun s =>
    ⟨{ s with status := .halted }, (execHalt_next_iff _ _).2 rfl, rfl,
      ⟨fun _ => rfl, rfl, SameMemory.of_seg rfl, ⟨rfl, rfl⟩, rfl⟩, ⟨rfl, rfl⟩, rfl, step_of_halted rfl⟩⟩

/-! ### `ReplaceSeg0`: when it succeeds, and what it leaves (20_memory.md R62) -/

namespace State

theorem replaceSeg0_of_fits {s : State} {id : Word} (h : s.active id = true)
    (hFits : s.fitsCapacity (s.used - s.segLen 0#32 + s.segLen id)) : ∃ t, s.replaceSeg0 id = .ok t := by
  obtain ⟨g, hg⟩ := (active_iff _ _).1 h
  rw [segLen_of_segment? hg, ← exceedsCapacity_eq_false_iff] at hFits
  exact ⟨_, (replaceSeg0_ok_iff _ _ _).2 ⟨g, hg, hFits, rfl⟩⟩

theorem replaceSeg0_of_not_fits {s : State} {id : Word} (h : s.active id = true)
    (hOver : ¬ s.fitsCapacity (s.used - s.segLen 0#32 + s.segLen id)) :
    s.replaceSeg0 id = .error .storageExhausted := by
  obtain ⟨g, hg⟩ := (active_iff _ _).1 h
  rw [segLen_of_segment? hg, ← exceedsCapacity_eq_false_iff, Bool.not_eq_false] at hOver
  exact (replaceSeg0_error_iff _ _ _).2 (.inr ⟨g, hg, hOver, rfl⟩)

/-- What LoadProgram's jump leaves of its copy: segment 0 is the source, the rest is as it was. -/
theorem replaceSeg0_setPc_effect {s u : State} {id : Word} (h : s.replaceSeg0 id = .ok u) (target : Word) :
    (u.setPc target).active 0#32 = true ∧ (u.setPc target).segLen 0#32 = s.segLen id ∧
      (∀ k : Word, (u.setPc target).memRead 0#32 k = s.memRead id k) ∧
      SameMemoryOutside 0#32 s (u.setPc target) ∧ SameRegs s (u.setPc target) ∧
      SameAllocator s (u.setPc target) ∧ SameStreams s (u.setPc target) ∧
      SameEngine s (u.setPc target) := by
  have hLen : u.segLen 0#32 = s.segLen id := segLen_replaceSeg0 h 0#32
  have hWords (k : Word) : u.memRead 0#32 k = s.memRead id k := memRead_replaceSeg0 h 0#32 k
  have hActive : u.active 0#32 = true := (active_replaceSeg0_iff h 0#32).2 (.inl rfl)
  obtain ⟨g, -, -, rfl⟩ := (replaceSeg0_ok_iff _ _ _).1 h
  have hOthers (j : Word) (hj : j ≠ 0#32) :
      ((s.putSegment 0#32 g).setPc target).segment? j = s.segment? j := by
    rw [segment?_setPc, segment?_putSegment, if_neg hj]
  exact ⟨hActive, hLen, hWords, .of_segment? hOthers, fun _ => rfl, ⟨rfl, rfl⟩, ⟨rfl, rfl⟩, ⟨rfl, rfl⟩⟩

end State

/-! ### LoadProgram: the jump, the copy and the failures (43_control.md R181) -/

theorem execLoadProgram_of_loadSegment0 {b c : Reg} {s u : State} (h : loadSegment0 s (s.reg b) = .ok u) :
    exec (.loadProgram b c) s = .next (u.setPc (s.reg c)) :=
  (execLoadProgram_next_iff _ _ _ _).2 (.inl ⟨u, h, rfl⟩)

/-- A LoadProgram that leaves the engine running jumped to the target it read. -/
theorem execLoadProgram_pc_of_running {b c : Reg} {s t : State} (h : exec (.loadProgram b c) s = .next t)
    (hRunning : t.status = .running) : t.pc = s.reg c := by
  rcases (execLoadProgram_next_iff _ _ _ _).1 h with ⟨u, -, rfl⟩ | ⟨reason, -, rfl⟩
  · rfl
  · cases hRunning

/-- Settles O33, by whether the source is 0, and by the checks of the copy where it is not; the range
check of a target is left to the next step. -/
theorem loadProgramResult : Obligations.LoadProgramResult := by
  intro b c s
  refine ⟨fun a => decode_encode3 12 a b c, fun hZero => ?_, fun hNonzero hActive hFits => ?_,
    fun hNonzero hInactive => ?_, fun hNonzero hActive hOver => ?_, fun t hExec hRunning hOut => ?_⟩
  · have hNoCopy : loadSegment0 s (s.reg b) = .ok s :=
      (State.loadSegment0_ok_iff _ _ _).2 (.inl ⟨hZero, rfl⟩)
    exact ⟨_, execLoadProgram_of_loadSegment0 hNoCopy, rfl, .of_seg rfl, fun _ => rfl, ⟨rfl, rfl⟩,
      ⟨rfl, rfl⟩, ⟨rfl, rfl⟩⟩
  · obtain ⟨u, hCopy⟩ := State.replaceSeg0_of_fits hActive hFits
    have hLoad : loadSegment0 s (s.reg b) = .ok u :=
      (State.loadSegment0_ok_iff _ _ _).2 (.inr ⟨hNonzero, hCopy⟩)
    exact ⟨_, execLoadProgram_of_loadSegment0 hLoad, rfl, State.replaceSeg0_setPc_effect hCopy _⟩
  · exact execLoadProgram_fails (State.loadSegment0_of_inactive hNonzero hInactive)
  · exact execLoadProgram_fails ((State.loadSegment0_error_iff _ _ _).2
      ⟨hNonzero, State.replaceSeg0_of_not_fits hActive hOver⟩)
  · have hPc : t.pc = s.reg c := execLoadProgram_pc_of_running hExec hRunning
    exact ⟨_, step_of_segLen_le hRunning (hPc ▸ hOut), .failed t _⟩

end Sys2Proof.Machine

/-! ## Input and output: the two streams and the host's answers (44_io.md) -/

namespace Sys2Proof.Machine

/-! ### What an instruction can do to the streams (44_io.md R203) -/

/-- All that an instruction can do to the streams: nothing, the one byte an Output emits, or the one
answer an Input takes. -/
inductive StreamEffect (s : State) : Instr → State → Prop where
  | keeps {i : Instr} {t : State} : SameStreams s t → StreamEffect s i t
  | emits (c : Reg) : StreamEffect s (.output c) (s.outWrite (lowByte (s.reg c)))
  | consumes (c : Reg) (v : Word) : StreamEffect s (.input c) (s.advanceInput.setReg c v)

/-- LoadProgram's copy and jump touch neither stream. -/
theorem sameStreams_of_loadSegment0 {s u : State} {id : Word} (h : loadSegment0 s id = .ok u)
    (target : Word) : SameStreams s (u.setPc target) := by
  rcases (State.loadSegment0_ok_iff _ _ _).1 h with ⟨-, rfl⟩ | ⟨-, hCopy⟩
  · exact ⟨rfl, rfl⟩
  · obtain ⟨-, -, -, -, -, -, hStreams, -⟩ := State.replaceSeg0_setPc_effect hCopy target
    exact hStreams

/-- Every next state of an instruction is one of `StreamEffect`'s cases. -/
theorem exec_streams {i : Instr} {s t : State} (h : exec i s = .next t) : StreamEffect s i t := by
  cases i with
  | add a b c | multiply a b c | nand a b c | loadImmediate a value | halt =>
    cases h
    exact .keeps ⟨rfl, rfl⟩
  | conditionalMove a b c =>
    rcases (execConditionalMove_next_iff _ _ _ _ _).1 h with ⟨-, rfl⟩ | ⟨-, rfl⟩ <;> exact .keeps ⟨rfl, rfl⟩
  | divide a b c =>
    rcases (execDivide_next_iff _ _ _ _ _).1 h with ⟨-, rfl⟩ | ⟨-, rfl⟩ <;> exact .keeps ⟨rfl, rfl⟩
  | segmentLoad a b c =>
    rcases (execSegmentLoad_next_iff _ _ _ _ _).1 h with ⟨v, -, rfl⟩ | ⟨reason, -, rfl⟩ <;>
      exact .keeps ⟨rfl, rfl⟩
  | segmentStore a b c =>
    rcases (execSegmentStore_next_iff _ _ _ _ _).1 h with hOk | ⟨reason, -, rfl⟩
    · obtain ⟨-, -, -, hStreams, -⟩ := State.memWrite_frame hOk
      exact .keeps hStreams
    · exact .keeps ⟨rfl, rfl⟩
  | mapSegment b c =>
    rcases (execMapSegment_next_iff _ _ _ _).1 h with ⟨id, u, hOk, rfl⟩ | ⟨reason, -, rfl⟩
    · obtain ⟨-, -, -, hOut, hInpos, -⟩ := State.alloc_rest hOk
      exact .keeps ⟨hOut, hInpos⟩
    · exact .keeps ⟨rfl, rfl⟩
  | unmapSegment c =>
    rcases (execUnmapSegment_next_iff _ _ _).1 h with hOk | ⟨reason, -, rfl⟩
    · obtain ⟨-, -, -, rfl⟩ := (State.unmap_ok_iff _ _ _).1 hOk
      exact .keeps ⟨rfl, rfl⟩
    · exact .keeps ⟨rfl, rfl⟩
  | output c =>
    rcases (execOutput_next_iff _ _ _).1 h with ⟨-, rfl⟩ | ⟨-, rfl⟩
    · exact .emits c
    · exact .keeps ⟨rfl, rfl⟩
  | input c =>
    obtain rfl := (execInput_next_iff _ _ _).1 h
    exact .consumes c _
  | loadProgram b c =>
    rcases (execLoadProgram_next_iff _ _ _ _).1 h with ⟨u, hOk, rfl⟩ | ⟨reason, -, rfl⟩
    · exact .keeps (sameStreams_of_loadSegment0 hOk _)
    · exact .keeps ⟨rfl, rfl⟩
  | unknown14 | unknown15 =>
    rcases (unknownOpcode_next_iff _ _).1 h with ⟨-, rfl⟩ | ⟨-, rfl⟩ <;> exact .keeps ⟨rfl, rfl⟩

/-- `v[7:0]` is the value modulo 2^8. -/
theorem lowByte_eq_ofNat (v : Word) : lowByte v = BitVec.ofNat 8 v.toNat := rfl

/-- Settles O14: the streams are kept, or one byte is emitted, or one answer is taken. -/
theorem streamsMoveInExecutionOrder : Obligations.StreamsMoveInExecutionOrder := by
  intro i s t h
  cases exec_streams h with
  | keeps hStreams => exact ⟨.inl hStreams.out, .inl hStreams.inpos⟩
  | emits c => exact ⟨.inr ⟨c, rfl, rfl, by rw [State.outWrite_out, lowByte_eq_ofNat]⟩, .inl rfl⟩
  | consumes c v => exact ⟨.inl rfl, .inr ⟨c, rfl, rfl⟩⟩

/-! ### Output: the byte emitted, and the value that is none (44_io.md R200) -/

theorem toNat_lowByte {v : Word} (h : v.toNat ≤ 255) : (lowByte v).toNat = v.toNat := by
  rw [lowByte_eq_ofNat, BitVec.toNat_ofNat, Nat.mod_eq_of_lt (Nat.lt_succ_of_le h)]

/-- The frame of an emitted byte. -/
theorem KeepsRegsPcMemory.outWrite (s : State) (b : Byte) : KeepsRegsPcMemory s (s.outWrite b) where
  regs _ := rfl
  pc := rfl
  memory := SameMemory.of_seg rfl
  allocator := ⟨rfl, rfl⟩
  launch := rfl

/-- Settles O37, by whether the value is a byte: then its low eight bits are all of it. -/
theorem outputResult : Obligations.OutputResult := by
  intro c s
  refine ⟨fun a b => decode_encode3 10 a b c, fun hByte => ?_, fun hOver => ?_⟩
  · exact ⟨_, (execOutput_next_iff _ _ _).2 (.inl ⟨hByte, rfl⟩), ⟨_, rfl, toNat_lowByte hByte⟩, rfl, rfl,
      .outWrite s _⟩
  · exact ⟨_, (execOutput_next_iff _ _ _).2 (.inr ⟨hOver, rfl⟩), .failed s _⟩

/-! ### Input: the word written for the host's answer (44_io.md R201) -/

/-- The byte is zero-extended (92_eei_decisions.md D12), so its value is kept. -/
theorem toNat_answerWord_byte (b : Byte) : (answerWord (.byte b)).toNat = b.toNat :=
  BitVec.toNat_setWidth_of_le (by decide)

/-- Settles O38: the register written holds the word of the next answer, whichever it is, and nothing else
but the position in `INPUT` moves. -/
theorem inputResult : Obligations.InputResult := by
  intro c s
  have hWritten : (s.advanceInput.setReg c (answerWord s.nextAnswer)).reg c = answerWord s.nextAnswer :=
    State.reg_setReg_self _ _ _
  refine ⟨fun a b => decode_encode3 11 a b c, _, (execInput_next_iff _ _ _).2 rfl, fun byte hAnswer => ?_,
    fun hAnswer => ?_, rfl, rfl, rfl, fun r hr => State.reg_setReg_ne s.advanceInput hr _, rfl,
    .of_seg rfl, ⟨rfl, rfl⟩, rfl⟩
  · rw [hWritten, hAnswer, toNat_answerWord_byte]
  · rw [hWritten, hAnswer]
    rfl

end Sys2Proof.Machine

/-! ## The exit status: 0 on halt, not 0 on a failure (60_exceptions.md) -/

namespace Sys2Proof

/-- The shift by one in either sign keeps the integer away from 0. -/
theorem Config.NonZeroInt.toInt_ne_zero (z : Config.NonZeroInt) : z.toInt ≠ 0 := by
  cases z with
  | positive n =>
    show (n + 1 : Int) ≠ 0
    omega
  | negative n =>
    show -(n + 1 : Int) ≠ 0
    omega

end Sys2Proof

namespace Sys2Proof.Machine

namespace State

variable {s : State}

theorem exitStatus_of_running (h : s.status = .running) : s.exitStatus = none := by
  simp only [exitStatus, h]

theorem exitStatus_of_halted (h : s.status = .halted) : s.exitStatus = some 0 := by
  simp only [exitStatus, h]

theorem exitStatus_of_failed {reason : FailReason} (h : s.status = .failed reason) :
    s.exitStatus = some (Config.exitCode reason).toInt := by
  simp only [exitStatus, h]

end State

/-- Settles O43, by the status: a failure's exit status is there, and is not 0 because `EXIT_CODE` answers
with a non-zero integer. -/
theorem exitStatusIsZeroExactlyOnHalt : Obligations.ExitStatusIsZeroExactlyOnHalt := by
  intro s
  cases hStatus : s.status with
  | running => simp [State.exitStatus_of_running hStatus]
  | halted => simp [State.exitStatus_of_halted hStatus]
  | failed reason =>
    have hNonZero := (Config.exitCode reason).toInt_ne_zero
    simp [State.exitStatus_of_failed hStatus, hNonZero]

end Sys2Proof.Machine

/-! ## Reset and the image load (70_reset_and_hazards.md) -/

namespace Sys2Proof

/-- The four bytes do not overlap, so `|` adds them, the first the most significant (20_memory.md R65). -/
theorem toNat_wordOfBytes (b0 b1 b2 b3 : Byte) :
    (wordOfBytes b0 b1 b2 b3).toNat =
      b0.toNat * 2 ^ 24 + b1.toNat * 2 ^ 16 + b2.toNat * 2 ^ 8 + b3.toNat := by
  have h0 := b0.isLt
  have h1 := b1.isLt
  have h2 := b2.isLt
  have h3 := b3.isLt
  have hFits : (wordOfBytes b0 b1 b2 b3).toNat =
      b0.toNat <<< 24 ||| (b1.toNat <<< 16 ||| (b2.toNat <<< 8 ||| b3.toNat)) := by
    simp only [wordOfBytes, BitVec.toNat_or, BitVec.toNat_shiftLeft, BitVec.toNat_setWidth, Nat.or_assoc,
      Nat.shiftLeft_eq]
    congr <;> omega
  rw [hFits, shiftLeft_or_eq_add_of_lt h3, shiftLeft_or_eq_add_of_lt (k := 16) (by omega),
    shiftLeft_or_eq_add_of_lt (k := 24) (by omega)]
  omega

end Sys2Proof

namespace Sys2Proof.Machine

/-! ### The words of an image -/

/-- Word k is made of the bytes 4k to 4k + 3 (70_reset_and_hazards.md R251). -/
theorem getElem?_wordsOfBytes {b0 b1 b2 b3 : Byte} : ∀ {image : List Byte} {k : Nat},
    image[4 * k]? = some b0 → image[4 * k + 1]? = some b1 → image[4 * k + 2]? = some b2 →
      image[4 * k + 3]? = some b3 → (wordsOfBytes image)[k]? = some (wordOfBytes b0 b1 b2 b3)
  | _ :: _ :: _ :: _ :: _, 0, h0, h1, h2, h3 => by
    cases h0; cases h1; cases h2; cases h3; rfl
  | _ :: _ :: _ :: _ :: _, k + 1, h0, h1, h2, h3 =>
    getElem?_wordsOfBytes (k := k) h0 h1 h2 h3
  | [], _, _, _, _, h3 | [_], _, _, _, _, h3 | [_, _], _, _, _, _, h3 | [_, _, _], _, _, _, _, h3 => by
    simp at h3

/-! ### When an image loads (92_eei_decisions.md D4, D5) -/

theorem refusesTrailing_iff (policy : Config.TrailingBytesPolicy) (image : List Byte) :
    refusesTrailing policy image = true ↔ image.length % 4 ≠ 0 ∧ policy = .fail := by
  cases policy <;> simp [refusesTrailing]

theorem loadImage_of_accepted {policy : Config.TrailingBytesPolicy} {image : List Byte}
    (hWhole : image.length % 4 = 0 ∨ policy = .truncate) (hShort : image.length / 4 ≤ maxSegmentLength) :
    loadImage policy image = .ok (.ofWords (wordsOfBytes image)) := by
  have hTrailing : ¬ refusesTrailing policy image = true := by
    rw [refusesTrailing_iff]
    rintro ⟨hPartial, rfl⟩
    simp [hPartial] at hWhole
  rw [loadImage, if_neg hTrailing, if_neg (Nat.not_lt.2 hShort)]

theorem loadImage_of_refused {policy : Config.TrailingBytesPolicy} {image : List Byte}
    (h : (image.length % 4 ≠ 0 ∧ policy = .fail) ∨ maxSegmentLength < image.length / 4) :
    loadImage policy image = .error .malformedProgram := by
  rw [← refusesTrailing_iff] at h
  unfold loadImage
  rcases h with hTrailing | hLong
  · rw [if_pos hTrailing]
  · rw [if_pos hLong, ite_self]

/-! ### The machine as created -/

section
variable {launch : Config.Launch} {image : List Byte}

theorem boot_of_ok {segment0 : Segment} (h : loadImage launch.trailingBytesPolicy image = .ok segment0) :
    boot launch image = .initial launch segment0 := by
  rw [boot, h]

theorem boot_of_error {reason : FailReason} (h : loadImage launch.trailingBytesPolicy image = .error reason) :
    boot launch image = { State.initial launch .empty with status := .failed reason } := by
  rw [boot, h]

end

theorem boot_nil (launch : Config.Launch) : boot launch [] = .initial launch .empty :=
  boot_of_ok (loadImage_of_accepted (.inl rfl) (Nat.zero_le _))

namespace State

variable (launch : Config.Launch) (segment0 : Segment)

theorem initial_reg (r : Reg) : (initial launch segment0).reg r = 0#32 := by
  fin_cases r <;> rfl

theorem segment?_initial_zero : (initial launch segment0).segment? 0#32 = some segment0 := rfl

theorem active_initial_of_ne {id : Word} (h : id ≠ 0#32) : (initial launch segment0).active id = false :=
  Bool.eq_false_iff.2 fun hActive => h ((active_initial_iff _ _ _).1 hActive)

/-- The words of the image are what segment 0 reads as. -/
theorem memRead_initial_ofWords {ws : List Word} {k w : Word} (h : ws[k.toNat]? = some w) :
    (initial launch (.ofWords ws)).memRead 0#32 k = .ok w := by
  obtain ⟨hIn, -⟩ := List.getElem?_eq_some_iff.1 h
  rw [memRead_of_segment? (segment?_initial_zero _ _) hIn, Segment.read_ofWords, h, Option.getD_some]

/-- With no word in segment 0 there is nothing to fetch at pc 0. -/
theorem step_initial_empty :
    step (initial launch .empty) = raise .programCounterOutOfRange (initial launch .empty) :=
  step_of_segLen_le rfl (le_refl 0)

end State

/-- Settles O40: an image that loads gives the initial state over the segment it makes. -/
theorem resetState : Obligations.ResetState := by
  intro launch image segment0 hLoad
  rw [boot_of_ok hLoad]
  exact ⟨State.initial_reg _ _, rfl, rfl, State.segment?_initial_zero _ _,
    fun _ => State.active_initial_of_ne _ _, rfl, rfl, rfl, rfl⟩

/-- Settles O42: the default launch with the empty image is `State.reset`, which holds no word to fetch. -/
theorem emptyImageFailsOnTheFirstStep : Obligations.EmptyImageFailsOnTheFirstStep :=
  ⟨boot_nil _, _, State.step_initial_empty _, rfl, rfl⟩

/-- Settles O41: an accepted image is the initial state over the image's words, a refused one leaves the
machine failed from the start, and an empty one has no word to fetch. -/
theorem imageLoadResult : Obligations.ImageLoadResult := by
  intro launch image
  refine ⟨fun hWhole hShort => ?_, fun hRefused => ?_, ?_⟩
  · rw [boot_of_ok (loadImage_of_accepted hWhole hShort)]
    refine ⟨rfl, length_wordsOfBytes image, fun k b0 b1 b2 b3 h0 h1 h2 h3 => ?_⟩
    exact ⟨_, State.memRead_initial_ofWords _ (getElem?_wordsOfBytes h0 h1 h2 h3),
      toNat_wordOfBytes b0 b1 b2 b3⟩
  · rw [boot_of_error (loadImage_of_refused hRefused)]
    exact ⟨rfl, rfl, rfl, step_of_failed rfl⟩
  · rintro rfl
    rw [boot_nil]
    exact ⟨rfl, _, State.step_initial_empty launch, rfl⟩

end Sys2Proof.Machine

/-! ## The words written out in the vectors (95_test_vectors.md) -/

namespace Sys2Proof

/-! ### The instruction a word stands for, by the number in bits 31 to 28 (30_encoding.md R87) -/

theorem decode_of_threeRegister {w : Word} (op : Fin 13) (h : w.toNat / 2 ^ 28 = op.val) :
    decode w = (Decoded.threeRegister op (fieldA w) (fieldB w) (fieldC w)).toInstr :=
  congrArg Decoded.toInstr (decodeFormat_of_threeRegister op h)

theorem decode_of_loadImmediate {w : Word} (h : w.toNat / 2 ^ 28 = 13) :
    decode w = .loadImmediate (fieldImmediateA w) (fieldValue w) :=
  congrArg Decoded.toInstr (decodeFormat_of_loadImmediate h)

theorem decode_of_unknown {w : Word} (rawOpcode : Fin 2) (h : w.toNat / 2 ^ 28 = 14 + rawOpcode.val) :
    decode w = (Decoded.unknown rawOpcode).toInstr :=
  congrArg Decoded.toInstr (decodeFormat_of_unknown rawOpcode h)

/-- Settles O5: the opcode of each word picks its row, and the operands are the fields of that row's
format, so the filler bits set in some of the words are not read. -/
theorem writtenOutWordsDecode : Obligations.WrittenOutWordsDecode :=
  ⟨decode_of_threeRegister 0 rfl, decode_of_threeRegister 3 rfl, decode_of_threeRegister 0 rfl,
    decode_of_threeRegister 7 rfl, decode_of_threeRegister 5 rfl, decode_of_loadImmediate rfl,
    decode_of_loadImmediate rfl, decode_of_threeRegister 8 rfl, decode_of_threeRegister 10 rfl,
    decode_of_threeRegister 12 rfl, decode_of_unknown 0 rfl, decode_of_unknown 1 rfl⟩

end Sys2Proof
